-- ==== Sys2Proof/Word.lean ====
section
/-! DEFINITION. The word types of the core: bytes, 16-bit words, and the fields of an instruction word
(00_scope.md R8, R11; 30_encoding.md R71). -/

namespace Sys2Proof

/-- A byte: a general register, a timer, a memory cell, the immediate KK (R11, R20). -/
abbrev Byte := BitVec 8

/-- A 16-bit word: I, PC, a return address, an instruction word (R11, R23, R24). -/
abbrev Word := BitVec 16

/-- The 4-bit register fields X and Y of an instruction word (R71). -/
abbrev RegIx := BitVec 4

/-- The 4-bit field N: a count 0..15 of sprite rows (R71, R72). -/
abbrev Nibble := BitVec 4

/-- The 12-bit address immediate NNN (R71, R72). -/
abbrev Addr12 := BitVec 12

/-- The index of a key of the input latch (R33). -/
abbrev KeyIx := BitVec 4

end Sys2Proof
end

