-- ==== Sys2Proof/Machine/Flags.lean ====
section
/-! DEFINITION. The flag computations of VF (10_state.md R21; 42_load_alu.md R120, R127 to R131, R134): each gives
the byte 0 or 1 that VF is written with. -/

namespace Sys2Proof.Machine

open Sys2Proof

/-- A flag as the byte VF holds: 1 or 0 (R120). -/
def flagByte (c : Bool) : Byte := if c then 1#8 else 0#8

/-- ADD reg: carry out of bit 7, `a + b > 255` (R127). -/
def carryFlag (a b : Byte) : Byte := flagByte (decide (a.toNat + b.toNat > 255))

/-- NOT borrow of `a - b`: `a >= b` (R128; R130 with the operands exchanged). -/
def notBorrowFlag (a b : Byte) : Byte := flagByte (decide (a.toNat ≥ b.toNat))

/-- SHR: bit 0 of the value before the shift (R129). -/
def shrFlag (a : Byte) : Byte := flagByte (a.getLsbD 0)

/-- SHL: bit 7 of the value before the shift (R131). -/
def shlFlag (a : Byte) : Byte := flagByte (a.getLsbD 7)

end Sys2Proof.Machine
end

