-- ==== Sys2Proof/Syntax.lean ====
section
/-! DEFINITION. The 35 instructions, one constructor for each row of spec/opcode_table.json, in its order
(30_encoding.md R73, R82). -/

namespace Sys2Proof

/-- An instruction with the fields its pattern names (R71, R73). Ignored low nibbles of classes 0x5 and 0x9
are no fields (R75; log 11); SHR and SHL carry the Y field that they do not read (R79). -/
inductive Instr where
  | sys (nnn : Addr12)              -- 0x0NNN  SYS addr
  | cls                             -- 0x00E0  CLS
  | ret                             -- 0x00EE  RET
  | jp (nnn : Addr12)               -- 0x1NNN  JP addr
  | call (nnn : Addr12)             -- 0x2NNN  CALL addr
  | se (x : RegIx) (kk : Byte)      -- 0x3XKK  SE Vx, byte
  | sne (x : RegIx) (kk : Byte)     -- 0x4XKK  SNE Vx, byte
  | seReg (x y : RegIx)             -- 0x5XYn  SE Vx, Vy
  | ld (x : RegIx) (kk : Byte)      -- 0x6XKK  LD Vx, byte
  | add (x : RegIx) (kk : Byte)     -- 0x7XKK  ADD Vx, byte
  | ldReg (x y : RegIx)             -- 0x8XY0  LD Vx, Vy
  | orReg (x y : RegIx)             -- 0x8XY1  OR Vx, Vy
  | andReg (x y : RegIx)            -- 0x8XY2  AND Vx, Vy
  | xorReg (x y : RegIx)            -- 0x8XY3  XOR Vx, Vy
  | addReg (x y : RegIx)            -- 0x8XY4  ADD Vx, Vy
  | sub (x y : RegIx)               -- 0x8XY5  SUB Vx, Vy
  | shr (x y : RegIx)               -- 0x8XY6  SHR Vx {, Vy}
  | subn (x y : RegIx)              -- 0x8XY7  SUBN Vx, Vy
  | shl (x y : RegIx)               -- 0x8XYE  SHL Vx {, Vy}
  | sneReg (x y : RegIx)            -- 0x9XYn  SNE Vx, Vy
  | ldI (nnn : Addr12)              -- 0xANNN  LD I, addr
  | jpV0 (nnn : Addr12)             -- 0xBNNN  JP V0, addr
  | rnd (x : RegIx) (kk : Byte)     -- 0xCXKK  RND Vx, byte
  | drw (x y : RegIx) (n : Nibble)  -- 0xDXYN  DRW Vx, Vy, nibble
  | skp (x : RegIx)                 -- 0xEX9E  SKP Vx
  | sknp (x : RegIx)                -- 0xEXA1  SKNP Vx
  | ldVxDt (x : RegIx)              -- 0xFX07  LD Vx, DT
  | ldVxK (x : RegIx)               -- 0xFX0A  LD Vx, K
  | ldDtVx (x : RegIx)              -- 0xFX15  LD DT, Vx
  | ldStVx (x : RegIx)              -- 0xFX18  LD ST, Vx
  | addIVx (x : RegIx)              -- 0xFX1E  ADD I, Vx
  | ldFVx (x : RegIx)               -- 0xFX29  LD F, Vx
  | ldBVx (x : RegIx)               -- 0xFX33  LD B, Vx
  | ldMemVx (x : RegIx)             -- 0xFX55  LD [I], Vx
  | ldVxMem (x : RegIx)             -- 0xFX65  LD Vx, [I]
  deriving DecidableEq, Repr

end Sys2Proof
end

