-- ==== Sys2Proof/Config.lean ====
section
/-! DEFINITION. The fixed parameters of the core (00_scope.md R8, R9), the embedding's parameter
`error_policy` (R10), and the one free value of the environment (92_eei_decisions.md D23). -/

namespace Sys2Proof.Config

/-- MEM_SIZE (R8). -/
def memSize : Nat := 4096

/-- PROG_BASE, the program origin and the reset value of PC (R8, R24). -/
def progBase : Nat := 0x200

/-- The largest program image, MEM_SIZE - PROG_BASE (R9). -/
def maxImage : Nat := 3584

/-- STACK_DEPTH (R8). -/
def stackDepth : Nat := 16

/-- The parameter `error_policy`: what the embedding does after a reported error (R10, R176). -/
inductive ErrorPolicy where
  | halt       -- no further steps
  | skip       -- the `skip_error` transaction, then steps on
  | propagate  -- the report goes up to the embedding's caller
  deriving DecidableEq, Repr

/-- The free draw of `RandomByte()`: the n-th byte taken from `rnd_in` when the environment has lined up none
(R44, R133, D23; log 9). It has no body: every value 0..255 is possible and none can be proved. -/
opaque randomByte : Nat → Byte

end Sys2Proof.Config
end

