-- ==== Sys2Proof/Machine/State.lean ====
section
/-! DEFINITION. The state of the core, its faults and refusals, and the state after reset
(10_state.md R20 to R37; 70_reset_and_hazards.md R190). -/

namespace Sys2Proof.Machine

open Sys2Proof

/-- Memory as the list of the cells that differ from what an unlisted address reads as (`background`,
Machine/Memory.lean), addresses strictly rising (10_state.md R31). -/
abbrev Memory := List Host.Cell

/-- The framebuffer, 32 rows of 64 one-bit pixels, the row first (10_state.md R32; 43_display.md R140). -/
abbrev Framebuffer := Vector (Vector Bool 64) 32

/-- The four errors and the absence of one (10_state.md R35; 60_exceptions.md R170). -/
inductive ErrCode where
  | none
  | unknownOpcode
  | stackOverflow
  | stackUnderflow
  | outOfBoundsFontIndex
  deriving DecidableEq, Repr

/-- The error status ERR (10_state.md R35). While the code is `none`, `pc` and `word` keep no meaning. -/
structure ErrStatus where
  code : ErrCode
  pc : Word
  word : Word
  deriving DecidableEq, Repr

/-- What the driver, the input adapter and the embedding can do between two steps and after the load
(10_state.md R38). -/
inductive EnvEvent where
  | tick                                -- tick_timers() (R42)
  | keySet (k : KeyIx) (pressed : Bool)  -- the input adapter (R45)
  | skipError                           -- the embedding's PC advance after an error (60_exceptions.md R176)
  deriving DecidableEq, Repr

/-- The machine: every piece of state the spec gives it, then the three fields that stand for the environment. -/
structure State where
  /-- V0..VF, VF the flag register (R20, R21). -/
  v : Vector Byte 16
  /-- The index register I (R23). -/
  i : Word
  /-- The program counter (R24). -/
  pc : Word
  /-- SP, the number of call-stack entries in use, 0..16 (R28; log 12). -/
  sp : Fin 17
  /-- The call stack (R27). -/
  stack : Vector Word 16
  /-- The delay timer (R29). -/
  dt : Byte
  /-- The sound timer (R30). -/
  st : Byte
  /-- Memory (R31). -/
  mem : Memory
  /-- The framebuffer (R32). -/
  fb : Framebuffer
  /-- The input latch, true for pressed (R33). -/
  keys : Vector Bool 16
  /-- The error status (R35). -/
  err : ErrStatus
  /-- MODEL'S OWN: for each coming step, what the environment does before it, in order (R38; log 8). -/
  schedule : List (List EnvEvent)
  /-- MODEL'S OWN: the bytes lined up at `rnd_in` for the next executions of RND (R44; log 9). -/
  draws : List Byte
  /-- MODEL'S OWN: how many draws have been taken (log 9). -/
  drawn : Nat
  deriving DecidableEq, Repr

/-- Why a run under an embedding ends. `step` itself never faults: an error is the next state that
60_exceptions.md R172 describes (log 1). -/
inductive Fault where
  /-- Raised by `stepUnder .halt` after a step that reported an error: no further steps (R176). Safe: the
  machine stops where the embedding stops. -/
  | halted (e : ErrStatus)
  /-- Raised by `stepUnder .propagate` after a step that reported an error: the embedding's caller decides, and
  the spec does not say what (R176). Safe: the model stops. -/
  | propagated (e : ErrStatus)
  deriving DecidableEq, Repr

/-- Why the model gives no meaning. -/
inductive Refusal where
  /-- Raised by an arm of `exec` whose instruction has no meaning yet; no arm does. Safe. -/
  | notModelled (mnemonic : String)
  /-- Raised by `launch`: an image of more than 3584 bytes is no launch (70_reset_and_hazards.md R191, D24;
  log 13). Safe. -/
  | imageTooLong (length : Nat)
  deriving DecidableEq, Repr

/-- The state after reset (70_reset_and_hazards.md R190). PC, SP, the framebuffer and ERR.code are the spec's; the
rest is open there, and takes the values that log 2 to log 9 name. `State.resetWith` (Machine/Transactions.lean) is
the same with every open value as an argument. -/
def State.reset : State where
  v := Vector.replicate 16 0#8
  i := 0#16
  pc := 0x200#16
  sp := 0
  stack := Vector.replicate 16 0#16
  dt := 0#8
  st := 0#8
  mem := []
  fb := Vector.replicate 32 (Vector.replicate 64 false)
  keys := Vector.replicate 16 false
  err := { code := .none, pc := 0#16, word := 0#16 }
  schedule := []
  draws := []
  drawn := 0

end Sys2Proof.Machine
end

