-- ==== Sys2Proof/Machine/Memory.lean ====
section
/-! DEFINITION. Memory: what an unlisted address reads as, one byte read and written, the canonical form
(10_state.md R31; 20_memory.md R50 to R58). -/

namespace Sys2Proof.Machine

open Sys2Proof

/-- The conventional font, glyphs 0 to 7 (92_eei_decisions.md D7; PRESUMED, log 6). -/
def fontGlyphs0to7 : List Byte :=
  [0xF0, 0x90, 0x90, 0x90, 0xF0] ++ [0x20, 0x60, 0x20, 0x20, 0x70] ++
  [0xF0, 0x10, 0xF0, 0x80, 0xF0] ++ [0xF0, 0x10, 0xF0, 0x10, 0xF0] ++
  [0x90, 0x90, 0xF0, 0x10, 0x10] ++ [0xF0, 0x80, 0xF0, 0x10, 0xF0] ++
  [0xF0, 0x80, 0xF0, 0x90, 0xF0] ++ [0xF0, 0x10, 0x20, 0x40, 0x40]

/-- The conventional font, glyphs 8 to F (92_eei_decisions.md D7; PRESUMED, log 6). -/
def fontGlyphs8toF : List Byte :=
  [0xF0, 0x90, 0xF0, 0x90, 0xF0] ++ [0xF0, 0x90, 0xF0, 0x10, 0xF0] ++
  [0xF0, 0x90, 0xF0, 0x90, 0x90] ++ [0xE0, 0x90, 0xE0, 0x90, 0xE0] ++
  [0xF0, 0x80, 0x80, 0x80, 0xF0] ++ [0xE0, 0x90, 0x90, 0x90, 0xE0] ++
  [0xF0, 0x80, 0xF0, 0x80, 0xF0] ++ [0xF0, 0x80, 0xF0, 0x80, 0x80]

/-- The default of the parameter `font`: 16 glyphs of 5 bytes (R10, D7; PRESUMED, log 6). -/
def defaultFont : List Byte := fontGlyphs0to7 ++ fontGlyphs8toF

/-- What an unlisted address reads as: the default font at 0x000..0x04F (20_memory.md R56; log 6), and 0 elsewhere,
the default of `reset_mem` (D6; DESIGN CHOICE, log 5). -/
def background (a : Nat) : Byte := defaultFont.getD a 0x00

/-- One byte of memory, at an address below 4096. -/
def Memory.read : Memory → Nat → Byte
  | [], a => background a
  | (k, b) :: rest, a => if a = k then b else Memory.read rest a

/-- Memory with one byte written. The list stays in its canonical form: writing what an unlisted address reads as
removes the entry. -/
def Memory.write : Memory → Nat → Byte → Memory
  | [], a, b => if b = background a then [] else [(a, b)]
  | (k, c) :: rest, a, b =>
    if a < k then (if b = background a then (k, c) :: rest else (a, b) :: (k, c) :: rest)
    else if a = k then (if b = background a then rest else (a, b) :: rest)
    else (k, c) :: Memory.write rest a b

/-- The canonical form: addresses strictly rising and below 4096, no entry equal to the background. -/
abbrev Memory.wf (m : Memory) : Prop :=
  m.Pairwise (fun p q => p.1 < q.1) ∧ ∀ p ∈ m, p.1 < Config.memSize ∧ p.2 ≠ background p.1

/-- MemRead(a, 1): the byte at `a mod 4096` (00_scope.md R13; 20_memory.md R53). -/
def State.memRead (s : State) (a : Nat) : Byte := Memory.read s.mem (a % Config.memSize)

/-- MemWrite(a, 1, b): the byte `b` at `a mod 4096` (00_scope.md R13; 20_memory.md R53). -/
def State.memWrite (s : State) (a : Nat) (b : Byte) : State :=
  { s with mem := Memory.write s.mem (a % Config.memSize) b }

/-- The instruction word at PC, big-endian: `(MemRead(PC) << 8) | MemRead(PC + 1)`, at odd addresses too
(20_memory.md R51, R52; 40_cycle.md R90). -/
def State.fetchWord (s : State) : Word :=
  wordOfBytes (s.memRead s.pc.toNat) (s.memRead (s.pc + 1#16).toNat)

end Sys2Proof.Machine
end

