-- ==== Sys2Proof/Machine/Ops.lean ====
section
/-! DEFINITION. The named operations over the state: registers, the four PC updates, the call stack, pixels, the
latch, the random byte, what the environment does between steps, and raising an error with the embedding's
`skip_error` beside it. -/

namespace Sys2Proof.Machine

open Sys2Proof

namespace State

/-! ## Registers (10_state.md R20, R23, R29, R30) -/

/-- V[x] (R12). -/
def getV (s : State) (x : RegIx) : Byte := s.v[x.toNat]

/-- V[x] <- b (R12). -/
def setV (s : State) (x : RegIx) (b : Byte) : State := { s with v := s.v.set x.toNat b }

/-- VF <- b; VF is V[15] (R12, R21). -/
abbrev setVF (s : State) (b : Byte) : State := s.setV 0xF#4 b

/-- I <- w (R23). -/
def setI (s : State) (w : Word) : State := { s with i := w }

/-- DT <- b (R29). -/
def setDt (s : State) (b : Byte) : State := { s with dt := b }

/-- ST <- b (R30). -/
def setSt (s : State) (b : Byte) : State := { s with st := b }

/-! ## The program counter (40_cycle.md R92) -/

/-- PC <- w, the update `Absolute` (R92). -/
def setPc (s : State) (w : Word) : State := { s with pc := w }

/-- The update `Next`: the default advance, PC + 2 mod 0x10000 (R92). -/
abbrev advance (s : State) : State := s.setPc (s.pc + 2#16)

/-- The update `Skip`, PC + 4 mod 0x10000, when the condition holds, and `Next` when it does not
(R92; 41_control_flow.md R100). -/
abbrev skipWhen (s : State) (c : Bool) : State := s.setPc (if c then s.pc + 4#16 else s.pc + 2#16)

/-! ## The call stack (10_state.md R27, R28) -/

/-- Stack[SP] <- w, SP <- SP + 1, where SP < 16 (41_control_flow.md R104). -/
def push (s : State) (w : Word) (h : s.sp.val < 16) : State :=
  { s with stack := s.stack.set s.sp.val w, sp := ⟨s.sp.val + 1, by omega⟩ }

/-- Stack[SP - 1], the entry that a pop reads, where SP > 0 (41_control_flow.md R102). -/
def top (s : State) (_ : 0 < s.sp.val) : Word := s.stack[s.sp.val - 1]'(by have := s.sp.isLt; omega)

/-- SP <- SP - 1; the popped entry keeps its value (41_control_flow.md R102). -/
def pop (s : State) : State := { s with sp := ⟨s.sp.val - 1, by have := s.sp.isLt; omega⟩ }

/-! ## The framebuffer and the latch (10_state.md R32, R33) -/

/-- The framebuffer written as a whole (R32). -/
def setFb (s : State) (fb : Framebuffer) : State := { s with fb := fb }

/-- Key(k) (R14, R33). -/
def key (s : State) (k : KeyIx) : Bool := s.keys[k.toNat]

/-- Key(k) <- pressed, the input adapter's write (R45). -/
def keySet (s : State) (k : KeyIx) (pressed : Bool) : State := { s with keys := s.keys.set k.toNat pressed }

/-! ## The random byte (10_state.md R44) -/

/-- RandomByte(): the byte at `rnd_in` for this execution of RND: the one the environment has lined up, or else a free
one (R44, D23; log 9). -/
def randomByte (s : State) : Byte :=
  match s.draws with
  | b :: _ => b
  | [] => Config.randomByte s.drawn

/-- The draw is taken: the next execution of RND samples another byte (log 9). -/
def drawTaken (s : State) : State := { s with draws := s.draws.tail, drawn := s.drawn + 1 }

/-! ## Errors (60_exceptions.md R170 to R176) -/

/-- Error entry: ERR takes the code, PC and the word fetched there; nothing else changes and PC stays (R172; log 1). -/
def raise (s : State) (c : ErrCode) : State := { s with err := { code := c, pc := s.pc, word := s.fetchWord } }

/-- ERR.code <- 0 (40_cycle.md R90); ERR.pc and ERR.word are not written (log 2). -/
def clearErr (s : State) : State := { s with err := { s.err with code := .none } }

/-- `skip_error`, the embedding's way on after an error: PC <- PC + 2 mod 0x10000, and nothing else (R176). -/
def skipError (s : State) : State := s.setPc (s.pc + 2#16)

/-! ## The timers' tick (60_exceptions.md R180) -/

/-- A counter one lower, saturating at 0 (R180). -/
def countDown (b : Byte) : Byte := if b.toNat > 0 then b - 1#8 else b

/-- `tick_timers()` (R42, R180). -/
def tick (s : State) : State := { s with dt := countDown s.dt, st := countDown s.st }

/-! ## Between two steps (10_state.md R38; log 8) -/

/-- One event of the environment. -/
def applyEvent (s : State) : EnvEvent → State
  | .tick => s.tick
  | .keySet k pressed => s.keySet k pressed
  | .skipError => s.skipError

/-- The events before the next step, in their order, taken off the schedule. -/
def settle (s : State) : State :=
  match s.schedule with
  | [] => s
  | events :: rest => events.foldl applyEvent { s with schedule := rest }

end State

/-- The code of an error in ERR.code, 3 bits (10_state.md R35; 60_exceptions.md R170). -/
def ErrCode.number : ErrCode → BitVec 3
  | .none => 0
  | .unknownOpcode => 1
  | .stackOverflow => 2
  | .stackUnderflow => 3
  | .outOfBoundsFontIndex => 4

/-! ## Pixels (10_state.md R32; 43_display.md R140) -/

/-- FB(x, y) (R14). -/
def Framebuffer.pixel (fb : Framebuffer) (x : Fin 64) (y : Fin 32) : Bool := fb[y.val][x.val]

/-- FB(x, y) <- b (R14). -/
def Framebuffer.setPixel (fb : Framebuffer) (x : Fin 64) (y : Fin 32) (b : Bool) : Framebuffer :=
  fb.set y.val (fb[y.val].set x.val b)

/-- Every pixel 0 (R32). -/
def Framebuffer.clear : Framebuffer := Vector.replicate 32 (Vector.replicate 64 false)

end Sys2Proof.Machine
end

