-- ==== Sys2Proof/Machine/Operands.lean ====
section
/-! DEFINITION. The operand forms: immediates (30_encoding.md R72), the addressing mode through I
(45_index_memory.md R160), the key an index selects (44_input_timer.md R150), the decimal digits of a byte
(45_index_memory.md R163), and the block transfers of registers (R164, R165). -/

namespace Sys2Proof.Machine

open Sys2Proof

/-- zext_16 of the 12-bit address immediate (R72). -/
def zextAddr (nnn : Addr12) : Word := nnn.setWidth 16

/-- zext_16 of a byte (00_scope.md R11). -/
def zextByte (b : Byte) : Word := b.setWidth 16

/-- The address of offset `k` through I; each access reduces it mod 4096 (20_memory.md R53; 45_index_memory.md R160). -/
def State.addrI (s : State) (k : Nat) : Nat := s.i.toNat + k

/-- The key that a register value selects: `v mod 16` (44_input_timer.md R150). -/
def keyIndex (v : Byte) : KeyIx := BitVec.ofNat 4 (v.toNat % 16)

/-- The lowest pressed key, scanning 0 to 15 (44_input_timer.md R153). -/
def State.firstKey (s : State) : Option Nat := (List.range 16).find? fun k => s.key (BitVec.ofNat 4 k)

/-- The hundreds digit (45_index_memory.md R163). -/
def hundredsDigit (v : Byte) : Byte := BitVec.ofNat 8 (v.toNat / 100)

/-- The tens digit (45_index_memory.md R163). -/
def tensDigit (v : Byte) : Byte := BitVec.ofNat 8 (v.toNat / 10 % 10)

/-- The ones digit (45_index_memory.md R163). -/
def onesDigit (v : Byte) : Byte := BitVec.ofNat 8 (v.toNat % 10)

/-- `for k in 0 .. n-1: MemWrite(I + k, 1, V[k])` (45_index_memory.md R164). -/
def State.storeRegs (s : State) : Nat → State
  | 0 => s
  | k + 1 => (s.storeRegs k).memWrite (s.addrI k) (s.getV (BitVec.ofNat 4 k))

/-- `for k in 0 .. n-1: V[k] <- MemRead(I + k, 1)` (45_index_memory.md R165). -/
def State.loadRegs (s : State) : Nat → State
  | 0 => s
  | k + 1 => (s.loadRegs k).setV (BitVec.ofNat 4 k) (s.memRead (s.addrI k))

end Sys2Proof.Machine
end

