-- ==== Sys2Proof/Machine/Alu.lean ====
section
/-! DEFINITION. Loads of immediates and the flag ALU (42_load_alu.md R120 to R134). Operands are read from the state
before the instruction (40_cycle.md R94); V[X] is written first and VF last (R95). -/

namespace Sys2Proof.Machine

open Sys2Proof

/-- The end of a flag instruction: V[X] <- result, then VF <- flag, then `Next` (R95). -/
abbrev State.finishFlagged (s : State) (x : RegIx) (result flag : Byte) : State :=
  ((s.setV x result).setVF flag).advance

/-- LD Vx, byte (R121). -/
def execLd (x : RegIx) (kk : Byte) (s : State) : Host.Outcome State Fault Refusal :=
  .next (s.setV x kk).advance

/-- ADD Vx, byte: mod 256, no flag (R122). -/
def execAdd (x : RegIx) (kk : Byte) (s : State) : Host.Outcome State Fault Refusal :=
  .next (s.setV x (s.getV x + kk)).advance

/-- LD Vx, Vy (R123). -/
def execLdReg (x y : RegIx) (s : State) : Host.Outcome State Fault Refusal :=
  .next (s.setV x (s.getV y)).advance

/-- OR Vx, Vy (R124). -/
def execOrReg (x y : RegIx) (s : State) : Host.Outcome State Fault Refusal :=
  .next (s.setV x (s.getV x ||| s.getV y)).advance

/-- AND Vx, Vy (R125). -/
def execAndReg (x y : RegIx) (s : State) : Host.Outcome State Fault Refusal :=
  .next (s.setV x (s.getV x &&& s.getV y)).advance

/-- XOR Vx, Vy (R126). -/
def execXorReg (x y : RegIx) (s : State) : Host.Outcome State Fault Refusal :=
  .next (s.setV x (s.getV x ^^^ s.getV y)).advance

/-- ADD Vx, Vy: VF is the carry (R127). -/
def execAddReg (x y : RegIx) (s : State) : Host.Outcome State Fault Refusal :=
  .next (s.finishFlagged x (s.getV x + s.getV y) (carryFlag (s.getV x) (s.getV y)))

/-- SUB Vx, Vy: VF is NOT borrow (R128). -/
def execSub (x y : RegIx) (s : State) : Host.Outcome State Fault Refusal :=
  .next (s.finishFlagged x (s.getV x - s.getV y) (notBorrowFlag (s.getV x) (s.getV y)))

/-- SHR Vx: VF is the bit shifted out; Y is not read (R129, 30_encoding.md R79). -/
def execShr (x _y : RegIx) (s : State) : Host.Outcome State Fault Refusal :=
  .next (s.finishFlagged x (s.getV x >>> 1) (shrFlag (s.getV x)))

/-- SUBN Vx, Vy: V[Y] - V[X], VF is NOT borrow (R130). -/
def execSubn (x y : RegIx) (s : State) : Host.Outcome State Fault Refusal :=
  .next (s.finishFlagged x (s.getV y - s.getV x) (notBorrowFlag (s.getV y) (s.getV x)))

/-- SHL Vx: VF is the bit shifted out; Y is not read (R131, 30_encoding.md R79). -/
def execShl (x _y : RegIx) (s : State) : Host.Outcome State Fault Refusal :=
  .next (s.finishFlagged x (s.getV x <<< 1) (shlFlag (s.getV x)))

/-- LD I, addr (R132). -/
def execLdI (nnn : Addr12) (s : State) : Host.Outcome State Fault Refusal :=
  .next (s.setI (zextAddr nnn)).advance

/-- RND Vx, byte: one draw of `rnd_in`, ANDed with KK (R133). -/
def execRnd (x : RegIx) (kk : Byte) (s : State) : Host.Outcome State Fault Refusal :=
  .next (s.drawTaken.setV x (s.randomByte &&& kk)).advance

end Sys2Proof.Machine
end

