-- ==== Sys2Proof/Machine/Control.lean ====
section
/-! DEFINITION. Control flow: SYS, RET, JP, CALL, SE, SNE, SE reg, SNE reg, JP V0 (41_control_flow.md R100 to R111). -/

namespace Sys2Proof.Machine

open Sys2Proof

/-- SYS addr: an absolute jump (R101). -/
def execSys (nnn : Addr12) (s : State) : Host.Outcome State Fault Refusal :=
  .next (s.setPc (zextAddr nnn))

/-- RET: StackUnderflow when the stack is empty, else PC <- popped address + 2 (R102). -/
def execRet (s : State) : Host.Outcome State Fault Refusal :=
  if h : 0 < s.sp.val then .next (s.pop.setPc (s.top h + 2#16)) else .next (s.raise .stackUnderflow)

/-- JP addr: an absolute jump (R103). -/
def execJp (nnn : Addr12) (s : State) : Host.Outcome State Fault Refusal :=
  .next (s.setPc (zextAddr nnn))

/-- CALL addr: StackOverflow when the stack is full, else push the CALL's own address and jump (R104). -/
def execCall (nnn : Addr12) (s : State) : Host.Outcome State Fault Refusal :=
  if h : s.sp.val < 16 then .next ((s.push s.pc h).setPc (zextAddr nnn)) else .next (s.raise .stackOverflow)

/-- SE Vx, byte (R105). -/
def execSe (x : RegIx) (kk : Byte) (s : State) : Host.Outcome State Fault Refusal :=
  .next (s.skipWhen (s.getV x == kk))

/-- SNE Vx, byte (R106). -/
def execSne (x : RegIx) (kk : Byte) (s : State) : Host.Outcome State Fault Refusal :=
  .next (s.skipWhen (s.getV x != kk))

/-- SE Vx, Vy (R107). -/
def execSeReg (x y : RegIx) (s : State) : Host.Outcome State Fault Refusal :=
  .next (s.skipWhen (s.getV x == s.getV y))

/-- SNE Vx, Vy (R108). -/
def execSneReg (x y : RegIx) (s : State) : Host.Outcome State Fault Refusal :=
  .next (s.skipWhen (s.getV x != s.getV y))

/-- JP V0, addr (R109). -/
def execJpV0 (nnn : Addr12) (s : State) : Host.Outcome State Fault Refusal :=
  .next (s.setPc (zextAddr nnn + zextByte (s.getV 0#4)))

end Sys2Proof.Machine
end

