-- ==== Sys2Proof/Machine/Display.lean ====
section
/-! DEFINITION. The XOR sprite compositor: CLS and DRW (43_display.md R140 to R146). -/

namespace Sys2Proof.Machine

open Sys2Proof

/-- CLS: every pixel 0 (R141). -/
def execCls (s : State) : Host.Outcome State Fault Refusal :=
  .next (s.setFb Framebuffer.clear).advance

/-- A draw in progress: the framebuffer, and the collision found so far (R143). -/
structure Canvas where
  fb : Framebuffer
  hit : Bool
  deriving DecidableEq, Repr

/-- One set sprite bit at (px, py): collision if the pixel was 1, then the pixel is inverted (R142). -/
def Canvas.plot (c : Canvas) (px : Fin 64) (py : Fin 32) : Canvas :=
  { fb := c.fb.setPixel px py (!c.fb.pixel px py), hit := c.hit || c.fb.pixel px py }

/-- Sprite bit `col` of the row byte: bit 7 is the origin column; the column wraps mod 64 and the row mod 32
(R140, R142, R144). -/
def Canvas.drawBit (x0 y : Nat) (b : Byte) (c : Canvas) (col : Nat) : Canvas :=
  if b.getLsbD (7 - col) then c.plot (Fin.ofNat 64 (x0 + col)) (Fin.ofNat 32 y) else c

/-- One sprite byte, columns 0 to 7 (R142). -/
def Canvas.drawRow (x0 y : Nat) (b : Byte) (c : Canvas) : Canvas :=
  (List.range 8).foldl (Canvas.drawBit x0 y b) c

/-- Rows 0 to n-1 of a sprite with the row bytes `sprite` (R142). -/
def Canvas.drawRows (sprite : Nat → Byte) (x0 y0 n : Nat) (c : Canvas) : Canvas :=
  (List.range n).foldl (fun c r => c.drawRow x0 (y0 + r) (sprite r)) c

/-- DRW Vx, Vy, nibble: the origin and the base are read first; VF is 0 at the start and 1 after a collision; the
sprite bytes are at I, I + 1, .. (R142). -/
def execDrw (x y : RegIx) (n : Nibble) (s : State) : Host.Outcome State Fault Refusal :=
  let c := Canvas.drawRows (fun r => s.memRead (s.addrI r)) (s.getV x).toNat (s.getV y).toNat n.toNat
    { fb := s.fb, hit := false }
  .next ((s.setFb c.fb).setVF (flagByte c.hit)).advance

end Sys2Proof.Machine
end

