-- ==== Sys2Proof/Machine/Input.lean ====
section
/-! DEFINITION. Input and timers: SKP, SKNP, LD VX,DT, LD VX,K, LD DT,VX, LD ST,VX (44_input_timer.md R150 to R156). -/

namespace Sys2Proof.Machine

open Sys2Proof

/-- SKP Vx (R150). -/
def execSkp (x : RegIx) (s : State) : Host.Outcome State Fault Refusal :=
  .next (s.skipWhen (s.key (keyIndex (s.getV x))))

/-- SKNP Vx (R151). -/
def execSknp (x : RegIx) (s : State) : Host.Outcome State Fault Refusal :=
  .next (s.skipWhen (!s.key (keyIndex (s.getV x))))

/-- LD Vx, DT (R152). -/
def execLdVxDt (x : RegIx) (s : State) : Host.Outcome State Fault Refusal :=
  .next (s.setV x s.dt).advance

/-- LD Vx, K: the lowest pressed key, or `Stay` (R153). -/
def execLdVxK (x : RegIx) (s : State) : Host.Outcome State Fault Refusal :=
  match s.firstKey with
  | some k => .next (s.setV x (BitVec.ofNat 8 k)).advance
  | none => .next s

/-- LD DT, Vx (R154). -/
def execLdDtVx (x : RegIx) (s : State) : Host.Outcome State Fault Refusal :=
  .next (s.setDt (s.getV x)).advance

/-- LD ST, Vx (R155). -/
def execLdStVx (x : RegIx) (s : State) : Host.Outcome State Fault Refusal :=
  .next (s.setSt (s.getV x)).advance

end Sys2Proof.Machine
end

