-- ==== Sys2Proof/Machine/Transfer.lean ====
section
/-! DEFINITION. The index register and memory transfers: ADD I,VX, LD F,VX, LD B,VX, LD [I],VX, LD VX,[I]
(45_index_memory.md R160 to R165). No memory transfer changes I (R160). -/

namespace Sys2Proof.Machine

open Sys2Proof

/-- ADD I, Vx: mod 0x10000, no flag (R161). -/
def execAddIVx (x : RegIx) (s : State) : Host.Outcome State Fault Refusal :=
  .next (s.setI (s.i + zextByte (s.getV x))).advance

/-- LD F, Vx: OutOfBoundsFontIndex when V[X] > 15, else I <- V[X] * 5 (R162). -/
def execLdFVx (x : RegIx) (s : State) : Host.Outcome State Fault Refusal :=
  if (s.getV x).toNat > 15 then .next (s.raise .outOfBoundsFontIndex)
  else .next (s.setI (zextByte (s.getV x) * 5#16)).advance

/-- LD B, Vx: the three decimal digits at I, I + 1, I + 2 (R163). -/
def execLdBVx (x : RegIx) (s : State) : Host.Outcome State Fault Refusal :=
  .next (((s.memWrite (s.addrI 0) (hundredsDigit (s.getV x))).memWrite (s.addrI 1) (tensDigit (s.getV x))).memWrite
    (s.addrI 2) (onesDigit (s.getV x))).advance

/-- LD [I], Vx: V0..VX to memory at I (R164). -/
def execLdMemVx (x : RegIx) (s : State) : Host.Outcome State Fault Refusal :=
  .next (s.storeRegs (x.toNat + 1)).advance

/-- LD Vx, [I]: V0..VX from memory at I (R165). -/
def execLdVxMem (x : RegIx) (s : State) : Host.Outcome State Fault Refusal :=
  .next (s.loadRegs (x.toNat + 1)).advance

end Sys2Proof.Machine
end

