-- ==== Sys2Proof/Machine/Cycle.lean ====
section
/-! DEFINITION. The fetch-decode-execute cycle (40_cycle.md R90). -/

namespace Sys2Proof.Machine

open Sys2Proof

/-- One cycle: fetch, decode, raise UnknownOpcode or execute. ERR.code is set to 0 before `exec`, which raises over
it: no instruction reads ERR (10_state.md R35), so this is R90's order (log 2). -/
def cycle (s : State) : Host.Outcome State Fault Refusal :=
  match decodeWord s.fetchWord with
  | .ok i => exec i s.clearErr
  | .error _ => .next (s.raise .unknownOpcode)

/-- `s` with a word stored at an address, high byte first (20_memory.md R51). -/
def State.placeWord (s : State) (a : Word) (w : Word) : State :=
  (s.memWrite a.toNat (highByte w)).memWrite (a + 1#16).toNat (lowByte w)

end Sys2Proof.Machine
end

