-- ==== Sys2Proof/Machine/Step.lean ====
section
/-! DEFINITION. One step of the machine, and the host's way to place an instruction where the next step fetches it. -/

namespace Sys2Proof.Machine

open Sys2Proof

/-- One step: what the environment does before it, then one fetch-decode-execute cycle (10_state.md R38, R41;
40_cycle.md R90; log 8). -/
def step (s : State) : Host.Outcome State Fault Refusal := cycle s.settle

/-- `s` with the instruction word whose `nbits` low bits are those of `w` stored at the PC the next step fetches at,
high byte first (20_memory.md R51); the load of log 16. -/
def State.withFetchWord (s : State) (nbits w : Nat) : State :=
  s.placeWord s.settle.pc (BitVec.ofNat 16 (w % 2 ^ nbits))

end Sys2Proof.Machine
end

