-- ==== Sys2Proof/Machine/Transactions.lean ====
section
/-! DEFINITION. The interface of the block (10_state.md R38 to R47): reset with every open value as an argument, the
loader and the launch, the step's response, the transactions, and the embedding's `error_policy`. -/

namespace Sys2Proof.Machine

open Sys2Proof

/-! ## Reset (70_reset_and_hazards.md R190) -/

/-- The values that the spec leaves open at reset, each a named argument (00_scope.md R10, D3 to D7, D22;
10_state.md R27, R35). -/
structure ResetParams where
  /-- `reset_regs.V[i]` (D3). -/
  v : Vector Byte 16
  /-- `reset_regs.I` (D3). -/
  i : Word
  /-- `reset_timers.DT` (D4). -/
  dt : Byte
  /-- `reset_timers.ST` (D4). -/
  st : Byte
  /-- The unspecified call-stack entries (D5). -/
  stack : Vector Word 16
  /-- `font`, the bytes of 0x000..0x04F (D7). -/
  font : Vector Byte 80
  /-- `reset_mem`, the bytes of 0x050..0xFFF (D6). -/
  mem : Nat → Byte
  /-- The input latch, an environment input (D22). -/
  keys : Vector Bool 16
  /-- ERR.pc and ERR.word, which keep no meaning while ERR.code is 0 (R35). -/
  errPc : Word
  errWord : Word

/-- The byte of memory at address `a` after reset (10_state.md R31). -/
def ResetParams.byte (p : ResetParams) (a : Nat) : Byte := if h : a < 80 then p.font[a] else p.mem a

/-- The entry of memory at address `a` after reset: none where the byte is what an unlisted address reads as. -/
def ResetParams.cell (p : ResetParams) (a : Nat) : Option Host.Cell :=
  if p.byte a = background a then none else some (a, p.byte a)

/-- Memory after reset, addresses 0 to n-1, in its canonical form (10_state.md R31). -/
@[irreducible] def ResetParams.memoryBelow (p : ResetParams) (n : Nat) : Memory := (List.range n).filterMap p.cell

/-- The state after reset for the open values `p`: PC 0x200, SP 0, the framebuffer clear, ERR.code 0 (R190). -/
def State.resetWith (p : ResetParams) : State where
  v := p.v
  i := p.i
  pc := 0x200#16
  sp := 0
  stack := p.stack
  dt := p.dt
  st := p.st
  mem := p.memoryBelow Config.memSize
  fb := Framebuffer.clear
  keys := p.keys
  err := { code := .none, pc := p.errPc, word := p.errWord }
  schedule := []
  draws := []
  drawn := 0

/-- The open values that `State.reset` takes (log 2 to log 7). -/
def ResetParams.default : ResetParams where
  v := Vector.replicate 16 0#8
  i := 0#16
  dt := 0#8
  st := 0#8
  stack := Vector.replicate 16 0#16
  font := Vector.ofFn fun a => background a.val
  mem := background
  keys := Vector.replicate 16 false
  errPc := 0#16
  errWord := 0#16

/-! ## Loader (10_state.md R40; 70_reset_and_hazards.md R191) -/

/-- `load(addr, byte)`: one byte of the loader's sequence; an address past the end is normal memory, mod 4096
(R40, 20_memory.md R53). DESIGN CHOICE: it writes the byte after the first step too, where the spec has the loader make
no load and gives one no effect (R192; log 18). -/
def State.load (s : State) (a : Nat) (b : Byte) : State := s.memWrite a b

/-- Image byte k to address `a + k` (R191). -/
def State.loadFrom (s : State) : Nat → List Byte → State
  | _, [] => s
  | a, b :: rest => (s.load a b).loadFrom (a + 1) rest

/-- The launch: reset, then the image at 0x200; a longer image than fits is refused (R191, R192, D24; log 13). -/
def launch (p : ResetParams) (image : List Byte) : Host.Outcome State Fault Refusal :=
  if image.length ≤ Config.maxImage then .next ((State.resetWith p).loadFrom Config.progBase image)
  else .refused (.imageTooLong image.length)

/-! ## The step's response and the outputs (10_state.md R41, R43, R46, R47) -/

/-- What a transaction answers. -/
inductive Response where
  | done                                                -- a transaction that answers nothing
  | ok                                                  -- a step with no error (R41)
  | error (code : ErrCode) (pc : Word) (word : Word)    -- a step that reports an error (R41, R172)
  | pixel (b : Bool)                                    -- fb_read (R46)
  deriving DecidableEq, Repr

/-- The response of the step that led to this state: ERR records its outcome (R35, R41, R43). -/
def State.stepResponse (s : State) : Response :=
  match s.err.code with
  | .none => .ok
  | .unknownOpcode => .error .unknownOpcode s.err.pc s.err.word
  | .stackOverflow => .error .stackOverflow s.err.pc s.err.word
  | .stackUnderflow => .error .stackUnderflow s.err.pc s.err.word
  | .outOfBoundsFontIndex => .error .outOfBoundsFontIndex s.err.pc s.err.word

/-- `fb_read(x, y)` (R46). -/
def State.fbRead (s : State) (x : Fin 64) (y : Fin 32) : Bool := Framebuffer.pixel s.fb x y

/-- `sound_active`, equal to ST != 0; the full ST value is exported too (R47). -/
def State.soundActive (s : State) : Bool := s.st != 0#8

/-! ## Transactions (10_state.md R38) -/

/-- The transactions of the block, one at a time, each atomic (R38). -/
inductive Transaction where
  | reset (p : ResetParams)
  | load (a : Nat) (b : Byte)
  | step
  | tick
  | keySet (k : KeyIx) (pressed : Bool)
  | fbRead (x : Fin 64) (y : Fin 32)
  | skipError

/-- Reset as a transaction: the core's state as R190 says; what the environment has lined up stays
(DESIGN CHOICE, log 8 and log 9). -/
def State.resetTo (s : State) (p : ResetParams) : State :=
  { State.resetWith p with schedule := s.schedule, draws := s.draws, drawn := s.drawn }

/-- The effect and the response of one transaction (R38 to R47). DESIGN CHOICE: a `load` is performed at any time, also
after the first step, when R192 has the loader make none (log 18). -/
def transact (t : Transaction) (s : State) : Host.Outcome (State × Response) Fault Refusal :=
  match t with
  | .reset p => .next (s.resetTo p, .done)
  | .load a b => .next (s.load a b, .done)
  | .step =>
    match step s with
    | .next s' => .next (s', s'.stepResponse)
    | .fault r => .fault r
    | .refused r => .refused r
  | .tick => .next (s.tick, .done)
  | .keySet k pressed => .next (s.keySet k pressed, .done)
  | .fbRead x y => .next (s, .pixel (s.fbRead x y))
  | .skipError => .next (s.skipError, .done)

/-- Transactions in order: every interleaving of steps, ticks and key events is one list (60_exceptions.md R181). -/
def transactAll : List Transaction → State → Host.Outcome State Fault Refusal
  | [], s => .next s
  | t :: rest, s =>
    match transact t s with
    | .next (s', _) => transactAll rest s'
    | .fault r => .fault r
    | .refused r => .refused r

/-! ## The embedding's response to an error (60_exceptions.md R176) -/

/-- What the embedding does after a step, by its `error_policy` (R43, R176, D19; log 10). -/
def respond (policy : Config.ErrorPolicy) (s : State) : Host.Outcome State Fault Refusal :=
  if s.err.code = .none then .next s
  else match policy with
    | .halt => .fault (.halted s.err)
    | .skip => .next s.skipError
    | .propagate => .fault (.propagated s.err)

/-- A step under an embedding: the step, then the embedding's response to its report (R176). -/
def stepUnder (policy : Config.ErrorPolicy) (s : State) : Host.Outcome State Fault Refusal :=
  match step s with
  | .next s' => respond policy s'
  | .fault r => .fault r
  | .refused r => .refused r

end Sys2Proof.Machine
end

