-- ==== Sys2Proof/Safety.lean ====
section
/-! DEFINITION. The terms that claims use: a good state, the invariant, runs without a reported error, what is the same
in two states, and the pixels a sprite covers. -/

namespace Sys2Proof.Machine

open Sys2Proof

/-- No error is reported: a state whose ERR.code is not 0 is never a good final state (60_exceptions.md R176). -/
abbrev State.good (s : State) : Prop := s.err.code = .none

/-- The invariant of the machine: memory is in its canonical form (20_memory.md R50, R53: addresses 0x000..0xFFF). -/
abbrev State.Inv (s : State) : Prop := Memory.wf s.mem

/-- `n` steps in which no error is reported, from `s` to `t`: the premise that R176 asks of a claim about a run. -/
def GoodRun : Nat → State → State → Prop
  | 0, s, t => s = t
  | n + 1, s, t => ∃ u, step s = .next u ∧ u.good ∧ GoodRun n u t

/-- The parts of the state, as a frame names them. -/
inductive Part where
  | regs | index | pc | calls | dt | st | memory | screen | keys | err | schedule | draws
  deriving DecidableEq, Repr

/-- `t` agrees with `s` on a part: every general register, every call-stack entry and SP, every byte as `memRead` reads
it, every pixel, every key. -/
def Part.Same (s t : State) : Part → Prop
  | .regs => ∀ j, t.getV j = s.getV j
  | .index => t.i = s.i
  | .pc => t.pc = s.pc
  | .calls => t.sp = s.sp ∧ t.stack = s.stack
  | .dt => t.dt = s.dt
  | .st => t.st = s.st
  | .memory => ∀ a, t.memRead a = s.memRead a
  | .screen => ∀ x y, t.fb.pixel x y = s.fb.pixel x y
  | .keys => ∀ k, t.key k = s.key k
  | .err => t.err = s.err
  | .schedule => t.schedule = s.schedule
  | .draws => t.draws = s.draws ∧ t.drawn = s.drawn

/-- The frame: `t` agrees with `s` on every part but the ones listed. -/
def SameBut (changed : List Part) (s t : State) : Prop := ∀ p, p ∉ changed → p.Same s t

/-- The general registers agree but for the ones listed. -/
def RegsBut (changed : List RegIx) (s t : State) : Prop := ∀ j, j ∉ changed → t.getV j = s.getV j

/-- Every byte of memory reads as before but those at the listed addresses, taken mod 4096 (20_memory.md R53). -/
def BytesBut (changed : List Nat) (s t : State) : Prop :=
  ∀ a, (∀ c ∈ changed, a % Config.memSize ≠ c % Config.memSize) → t.memRead a = s.memRead a

/-- PC is `n` further, mod 0x10000 (40_cycle.md R92). -/
def PcBy (n : Nat) (s t : State) : Prop := t.pc.toNat = (s.pc.toNat + n) % 65536

/-- An error was raised with this code: ERR holds the code, PC and the fetched word, and nothing else changed
(60_exceptions.md R172). -/
def Raised (c : ErrCode) (s t : State) : Prop := t.err = ⟨c, s.pc, s.fetchWord⟩ ∧ SameBut [.err] s t

/-- The general registers an instruction writes, VF as a flag among them (10_state.md R21, R22). -/
def destinations : Instr → List RegIx
  | .ld x _ | .add x _ | .ldReg x _ | .orReg x _ | .andReg x _ | .xorReg x _ | .rnd x _ | .ldVxDt x | .ldVxK x => [x]
  | .addReg x _ | .sub x _ | .shr x _ | .subn x _ | .shl x _ => [x, 0xF#4]
  | .drw _ _ _ => [0xF#4]
  | .ldVxMem x => (List.range (x.toNat + 1)).map (BitVec.ofNat 4)
  | .sys _ | .cls | .ret | .jp _ | .call _ | .se _ _ | .sne _ _ | .seReg _ _ | .sneReg _ _ | .ldI _ | .jpV0 _
  | .skp _ | .sknp _ | .ldDtVx _ | .ldStVx _ | .addIVx _ | .ldFVx _ | .ldBVx _ | .ldMemVx _ => []

/-- Some set bit of the sprite lands on the pixel: bit 7 - col of row byte r, at column (x0 + col) mod 64 and row
(y0 + r) mod 32 (43_display.md R142, R144). -/
def Covers (sprite : Nat → Byte) (x0 y0 n : Nat) (x : Fin 64) (y : Fin 32) : Prop :=
  ∃ r < n, ∃ col < 8, (sprite r).getLsbD (7 - col) = true ∧ x.val = (x0 + col) % 64 ∧ y.val = (y0 + r) % 32

end Sys2Proof.Machine
end

