-- ==== Sys2Proof/Certificates/Slice0/Obligations.lean ====
section
/-! DEFINITION. The statements for the provers, from the numbered rules of spec/. A statement about every state holds in
states that no run reaches; where memory is read back after a store, the premise `s.Inv` (memory in canonical form) is
stated as an invariant of its own. `SameBut ps s t` is the frame: `t` agrees with `s` on every part but those listed. -/

open Sys2Proof Sys2Proof.Machine

/-! ## Encoding -/

/-- Words written out from the encodings, decoded (the worked decodes of 30_encoding.md section 5 and the vectors of
95_test_vectors.md section 2.1). -/
def Obligations.WorkedWordsDecode : Prop :=
  decodeWord 0x6005 = .ok (.ld 0 0x05) ∧ decodeWord 0x7003 = .ok (.add 0 0x03) ∧
  decodeWord 0x8AB4 = .ok (.addReg 0xA 0xB) ∧ decodeWord 0xD125 = .ok (.drw 1 2 5) ∧
  decodeWord 0xF155 = .ok (.ldMemVx 1) ∧ decodeWord 0x8128 = .error (.unknownOpcode 0x8128) ∧
  decodeWord 0xE1A0 = .error (.unknownOpcode 0xE1A0) ∧ decodeWord 0x5121 = .ok (.seReg 1 2) ∧
  decodeWord 0x0123 = .ok (.sys 0x123) ∧ decodeWord 0x00E0 = .ok .cls ∧ decodeWord 0x01E0 = .ok (.sys 0x1E0) ∧
  decodeWord 0xE19E = .ok (.skp 1) ∧ decodeWord 0xF10A = .ok (.ldVxK 1)

/-- Decoding what the encoder writes gives every well-formed instruction back, with every operand. -/
def Obligations.DecodeOfEncode : Prop :=
  ∀ i : Instr, i.wellFormed = true → decodeWord (encode i) = .ok i ∧
    ∀ rest, decode (highByte (encode i) :: lowByte (encode i) :: rest) = .ok (i, rest)

/-- Encoding what the decoder reads gives the word back, but for the low nibble that classes 0x5 and 0x9 ignore, and the
instruction read is well formed. The ignored nibble is the spec's own decision D11 (log 11). -/
def Obligations.EncodeOfDecode : Prop :=
  ∀ (w : Word) (i : Instr), decodeWord w = .ok i → encode i = canonicalWord w ∧ i.wellFormed = true

/-- The first level of the dispatch (30_encoding.md section 2): twelve classes map to one instruction each, class 0x0 gives
CLS, RET or SYS. -/
def Obligations.TwelveClassesMapToOneInstruction : Prop :=
  ∀ w : Word,
    (fieldC w = 0x0 → decodeWord w = .ok .cls ∨ decodeWord w = .ok .ret ∨ decodeWord w = .ok (.sys (fieldNNN w))) ∧
    (fieldC w = 0x1 → decodeWord w = .ok (.jp (fieldNNN w))) ∧
    (fieldC w = 0x2 → decodeWord w = .ok (.call (fieldNNN w))) ∧
    (fieldC w = 0x3 → decodeWord w = .ok (.se (fieldX w) (fieldKK w))) ∧
    (fieldC w = 0x4 → decodeWord w = .ok (.sne (fieldX w) (fieldKK w))) ∧
    (fieldC w = 0x5 → decodeWord w = .ok (.seReg (fieldX w) (fieldY w))) ∧
    (fieldC w = 0x6 → decodeWord w = .ok (.ld (fieldX w) (fieldKK w))) ∧
    (fieldC w = 0x7 → decodeWord w = .ok (.add (fieldX w) (fieldKK w))) ∧
    (fieldC w = 0x9 → decodeWord w = .ok (.sneReg (fieldX w) (fieldY w))) ∧
    (fieldC w = 0xA → decodeWord w = .ok (.ldI (fieldNNN w))) ∧
    (fieldC w = 0xB → decodeWord w = .ok (.jpV0 (fieldNNN w))) ∧
    (fieldC w = 0xC → decodeWord w = .ok (.rnd (fieldX w) (fieldKK w))) ∧
    (fieldC w = 0xD → decodeWord w = .ok (.drw (fieldX w) (fieldY w) (fieldN w)))

/-- Class 0x0: the exact words 0x00E0 and 0x00EE are CLS and RET, every other word is SYS (the spec's own decision D10). -/
def Obligations.ClsAndRetAreExactWords : Prop :=
  ∀ w : Word, fieldC w = 0x0 →
    (decodeWord w = .ok .cls ↔ w = 0x00E0) ∧ (decodeWord w = .ok .ret ↔ w = 0x00EE) ∧
    (decodeWord w = .ok (.sys (fieldNNN w)) ↔ w ≠ 0x00E0 ∧ w ≠ 0x00EE)

/-- R76, R77, R78: the second level of classes 0x8, 0xE and 0xF, and UnknownOpcode for the values that select nothing. -/
def Obligations.SecondLevelDispatch : Prop :=
  (∀ w : Word, fieldC w = 0x8 →
    (fieldN w = 0x0 → decodeWord w = .ok (.ldReg (fieldX w) (fieldY w))) ∧
    (fieldN w = 0x1 → decodeWord w = .ok (.orReg (fieldX w) (fieldY w))) ∧
    (fieldN w = 0x2 → decodeWord w = .ok (.andReg (fieldX w) (fieldY w))) ∧
    (fieldN w = 0x3 → decodeWord w = .ok (.xorReg (fieldX w) (fieldY w))) ∧
    (fieldN w = 0x4 → decodeWord w = .ok (.addReg (fieldX w) (fieldY w))) ∧
    (fieldN w = 0x5 → decodeWord w = .ok (.sub (fieldX w) (fieldY w))) ∧
    (fieldN w = 0x6 → decodeWord w = .ok (.shr (fieldX w) (fieldY w))) ∧
    (fieldN w = 0x7 → decodeWord w = .ok (.subn (fieldX w) (fieldY w))) ∧
    (fieldN w = 0xE → decodeWord w = .ok (.shl (fieldX w) (fieldY w))) ∧
    (fieldN w ∈ [0x8#4, 0x9#4, 0xA#4, 0xB#4, 0xC#4, 0xD#4, 0xF#4] → decodeWord w = .error (.unknownOpcode w))) ∧
  (∀ w : Word, fieldC w = 0xE →
    (fieldKK w = 0x9E → decodeWord w = .ok (.skp (fieldX w))) ∧
    (fieldKK w = 0xA1 → decodeWord w = .ok (.sknp (fieldX w))) ∧
    (fieldKK w ∉ [0x9E#8, 0xA1#8] → decodeWord w = .error (.unknownOpcode w))) ∧
  (∀ w : Word, fieldC w = 0xF →
    (fieldKK w = 0x07 → decodeWord w = .ok (.ldVxDt (fieldX w))) ∧
    (fieldKK w = 0x0A → decodeWord w = .ok (.ldVxK (fieldX w))) ∧
    (fieldKK w = 0x15 → decodeWord w = .ok (.ldDtVx (fieldX w))) ∧
    (fieldKK w = 0x18 → decodeWord w = .ok (.ldStVx (fieldX w))) ∧
    (fieldKK w = 0x1E → decodeWord w = .ok (.addIVx (fieldX w))) ∧
    (fieldKK w = 0x29 → decodeWord w = .ok (.ldFVx (fieldX w))) ∧
    (fieldKK w = 0x33 → decodeWord w = .ok (.ldBVx (fieldX w))) ∧
    (fieldKK w = 0x55 → decodeWord w = .ok (.ldMemVx (fieldX w))) ∧
    (fieldKK w = 0x65 → decodeWord w = .ok (.ldVxMem (fieldX w))) ∧
    (fieldKK w ∉ [0x07#8, 0x0A#8, 0x15#8, 0x18#8, 0x1E#8, 0x29#8, 0x33#8, 0x55#8, 0x65#8] →
      decodeWord w = .error (.unknownOpcode w)))

/-- The decoder and the opcode table agree: a word decodes to an instruction whose row it selects, it selects no other
row but SYS's beside CLS's and RET's, and a word that selects no row is the error UnknownOpcode, and only such a word. -/
def Obligations.DecoderAgreesWithOpcodeTable : Prop :=
  ∀ w : Word,
    (∀ i, decodeWord w = .ok i → i.row.selects w = true ∧
      ∀ j : Instr, j.row.selects w = true → j.row = i.row ∨ (w ∈ [0x00E0#16, 0x00EE#16] ∧ j.row = (Instr.sys 0).row)) ∧
    ((∀ j : Instr, j.row.selects w = false) ↔ decodeWord w = .error (.unknownOpcode w))

/-! ## Fetch and the cycle -/

/-- The fetched word is `(MemRead(PC) << 8) | MemRead(PC + 1)`, both addresses taken mod 4096, at every PC, odd ones and
0xFFF too (the last two are the spec's own decision D9). -/
def Obligations.FetchIsBigEndianAndWraps : Prop :=
  ∀ s : State, s.fetchWord =
    ((s.memRead (s.pc.toNat % 4096)).setWidth 16 <<< 8) ||| (s.memRead ((s.pc.toNat + 1) % 4096)).setWidth 16

/-- A step runs the decoded instruction: after what the environment does before it (`settle`), with ERR.code at 0, and
the environment's turn changes nothing but the timers, the latch, PC by `skip_error`, and its own schedule. -/
def Obligations.StepRunsDecodedInstruction : Prop :=
  (∀ (s : State) (i : Instr), decodeWord s.settle.fetchWord = .ok i → step s = exec i s.settle.clearErr) ∧
  (∀ s : State, SameBut [.err] s s.clearErr ∧ s.clearErr.err.code = .none) ∧
  (∀ s : State, SameBut [.dt, .st, .keys, .pc, .schedule] s s.settle ∧ s.settle.schedule = s.schedule.tail) ∧
  (∀ s : State, s.schedule = [] → s.settle = s)

/-- R171: a word that decodes to nothing is reported, nothing else changes, and class 0x0, 0x5 and 0x9 words are never
such words. -/
def Obligations.UnknownOpcodeIsReportedWithoutEffect : Prop :=
  (∀ (s : State) (e : DecodeError), decodeWord s.settle.fetchWord = .error e →
    ∃ t, step s = .next t ∧ Raised .unknownOpcode s.settle t ∧
      t.stepResponse = .error .unknownOpcode s.settle.pc s.settle.fetchWord) ∧
  (∀ w : Word, fieldC w ∈ [0x0#4, 0x5#4, 0x9#4] → ∃ i, decodeWord w = .ok i)

/-- R96: a step reports an error exactly where one of the four checks fails, and then only ERR is written; otherwise
ERR.code is 0. -/
def Obligations.ErrorsAreExactAndPrecise : Prop :=
  ∀ s t : State, step s = .next t →
    (t.err.code = .unknownOpcode ↔ ∃ e, decodeWord s.settle.fetchWord = .error e) ∧
    (t.err.code = .stackOverflow ↔
      ∃ nnn, decodeWord s.settle.fetchWord = .ok (.call nnn) ∧ s.sp.val = 16) ∧
    (t.err.code = .stackUnderflow ↔ decodeWord s.settle.fetchWord = .ok .ret ∧ s.sp.val = 0) ∧
    (t.err.code = .outOfBoundsFontIndex ↔
      ∃ x, decodeWord s.settle.fetchWord = .ok (.ldFVx x) ∧ (s.getV x).toNat > 15) ∧
    (t.err.code ≠ .none → Raised t.err.code s.settle t ∧
      t.stepResponse = .error t.err.code s.settle.pc s.settle.fetchWord) ∧
    (t.err.code = .none → t.stepResponse = .ok)

/-- Every step completes: no step faults, refuses or blocks. -/
def Obligations.EveryStepCompletes : Prop :=
  (∀ s : State, ∃ t, step s = .next t) ∧ (∀ (i : Instr) (s : State), ∃ t, exec i s = .next t)

/-- Stepping again after an error, with nothing from the environment, reports the same error from the same state. -/
def Obligations.ErrorRepeatsUntilSkipped : Prop :=
  ∀ s t : State, step s = .next t → ¬ t.good → t.schedule = [] → step t = .next t

/-- No instruction reads ERR: from two states that differ in ERR alone, an instruction gives states that differ at most
in ERR. -/
def Obligations.NoInstructionReadsErr : Prop :=
  ∀ (i : Instr) (s : State) (e : ErrStatus),
    ∃ t u, exec i s = .next t ∧ exec i { s with err := e } = .next u ∧ u = { t with err := u.err }

/-! ## Invariants and rules of the whole machine -/

/-- Memory keeps its canonical form in every step. -/
def Obligations.StepKeepsMemoryCanonical : Prop :=
  ∀ s t : State, s.Inv → step s = .next t → t.Inv

/-- Memory keeps its canonical form in every interleaving of the block's transactions. -/
def Obligations.TransactionsKeepMemoryCanonical : Prop :=
  ∀ (ts : List Transaction) (s t : State), s.Inv → transactAll ts s = .next t → t.Inv

/-- Memory is in its canonical form after reset, whatever the open values are. -/
def Obligations.ResetMemoryIsCanonical : Prop :=
  State.reset.Inv ∧ ∀ p : ResetParams, (State.resetWith p).Inv

/-- R97: of the instructions, only LD DT,VX writes DT and only LD ST,VX writes ST, in every step. -/
def Obligations.StepsDoNotTickTimers : Prop :=
  ∀ s t : State, step s = .next t →
    (t.dt = s.settle.dt ∨ ∃ x, decodeWord s.settle.fetchWord = .ok (.ldDtVx x) ∧ t.dt = s.getV x) ∧
    (t.st = s.settle.st ∨ ∃ x, decodeWord s.settle.fetchWord = .ok (.ldStVx x) ∧ t.st = s.getV x)

/-- The write sets of R22: SP by CALL and RET, the entry Stack[SP] by CALL, the framebuffer by CLS and DRW, I by LD I,
ADD I,VX and LD F,VX, DT by LD DT,VX, ST by LD ST,VX, the three bytes at I by LD B,VX, the X + 1 bytes at I by LD [I],VX,
ERR where an error is raised, the latch never; and the general registers of the write sets alone. That LD B,VX, LD [I],VX,
LD VX,[I] and DRW leave I is the spec's own decision D17. Of the model's own fields, the draws change by RND alone (log 9)
and the schedule never (log 8). -/
def Obligations.InstructionsWriteOnlyTheirWriteSets : Prop :=
  ∀ (i : Instr) (s t : State), exec i s = .next t →
    (Part.Same s t .calls ∨ (i = .ret ∧ t.stack = s.stack) ∨
      ∃ nnn, i = .call nnn ∧ ∀ k : Fin 16, k.val ≠ s.sp.val → t.stack[k] = s.stack[k]) ∧
    (Part.Same s t .screen ∨ i = .cls ∨ ∃ x y n, i = .drw x y n) ∧
    (Part.Same s t .index ∨ (∃ nnn, i = .ldI nnn) ∨ ∃ x, i = .addIVx x ∨ i = .ldFVx x) ∧
    (Part.Same s t .dt ∨ ∃ x, i = .ldDtVx x) ∧
    (Part.Same s t .st ∨ ∃ x, i = .ldStVx x) ∧
    (Part.Same s t .memory ∨ (∃ x, i = .ldBVx x ∧ BytesBut [s.addrI 0, s.addrI 1, s.addrI 2] s t) ∨
      ∃ x, i = .ldMemVx x ∧ BytesBut ((List.range (x.toNat + 1)).map s.addrI) s t) ∧
    (Part.Same s t .draws ∨ ∃ x kk, i = .rnd x kk) ∧
    (Part.Same s t .err ∨ i = .ret ∨ (∃ nnn, i = .call nnn) ∨ ∃ x, i = .ldFVx x) ∧
    Part.Same s t .keys ∧ Part.Same s t .schedule ∧ RegsBut (destinations i) s t

/-- The six flag instructions leave 0 or 1 in VF, whatever X is. -/
def Obligations.FlagInstructionsLeaveZeroOrOne : Prop :=
  ∀ (x y : RegIx) (n : Nibble) (s t : State) (i : Instr),
    i ∈ [.addReg x y, .sub x y, .shr x y, .subn x y, .shl x y, .drw x y n] → exec i s = .next t →
    t.getV 0xF#4 = 0 ∨ t.getV 0xF#4 = 1

/-! ## Control flow -/

/-- R103, R109: JP and JP V0 set PC absolutely. -/
def Obligations.JumpsSetPcAbsolutely : Prop :=
  (∀ w : Word, fieldC w = 0x1 → decodeWord w = .ok (.jp (fieldNNN w))) ∧
  (∀ w : Word, fieldC w = 0xB → decodeWord w = .ok (.jpV0 (fieldNNN w))) ∧
  (∀ (nnn : Addr12) (s : State),
    ∃ t, exec (.jp nnn) s = .next t ∧ t.pc.toNat = nnn.toNat ∧ SameBut [.pc] s t) ∧
  (∀ (nnn : Addr12) (s : State),
    ∃ t, exec (.jpV0 nnn) s = .next t ∧ t.pc.toNat = nnn.toNat + (s.getV 0#4).toNat ∧ SameBut [.pc] s t)

/-- SYS sets PC absolutely and behaves like JP with the same address (the spec's own decision D12). -/
def Obligations.SysJumpsLikeJp : Prop :=
  ∀ (nnn : Addr12) (s : State),
    ∃ t, exec (.sys nnn) s = .next t ∧ t.pc.toNat = nnn.toNat ∧ SameBut [.pc] s t ∧ exec (.jp nnn) s = .next t

/-- R104: CALL pushes its own address and jumps; on a full stack it reports StackOverflow and changes nothing. -/
def Obligations.CallPushesItsAddress : Prop :=
  (∀ w : Word, fieldC w = 0x2 → decodeWord w = .ok (.call (fieldNNN w))) ∧
  (∀ (nnn : Addr12) (s : State), s.sp.val < 16 →
    ∃ t, exec (.call nnn) s = .next t ∧ t.sp.val = s.sp.val + 1 ∧
      (∀ k : Fin 16, t.stack[k] = if k.val = s.sp.val then s.pc else s.stack[k]) ∧
      t.pc.toNat = nnn.toNat ∧ SameBut [.pc, .calls] s t) ∧
  (∀ (nnn : Addr12) (s : State), s.sp.val = 16 →
    ∃ t, exec (.call nnn) s = .next t ∧ Raised .stackOverflow s t)

/-- R102: RET pops an address and continues 2 past it; on an empty stack it reports StackUnderflow and changes nothing. -/
def Obligations.RetReturnsPastTheCall : Prop :=
  decodeWord 0x00EE = .ok .ret ∧
  (∀ (s : State) (k : Fin 16), s.sp.val = k.val + 1 →
    ∃ t, exec .ret s = .next t ∧ t.sp.val = k.val ∧ t.stack = s.stack ∧
      t.pc.toNat = (s.stack[k].toNat + 2) % 65536 ∧ SameBut [.pc, .calls] s t) ∧
  (∀ s : State, s.sp.val = 0 → ∃ t, exec .ret s = .next t ∧ Raised .stackUnderflow s t)

/-- CALL, then a body that leaves the call stack as the CALL left it, then RET: PC is just after the CALL, and SP and
the entries in use are as before the CALL. -/
def Obligations.CallThenRetContinuesAfterTheCall : Prop :=
  ∀ (nnn : Addr12) (s t u : State), s.sp.val < 16 → exec (.call nnn) s = .next t → Part.Same t u .calls →
    ∃ v, exec .ret u = .next v ∧ PcBy 2 s v ∧ v.sp = s.sp ∧
      ∀ k : Fin 16, k.val < s.sp.val → v.stack[k] = s.stack[k]

/-- R105, R106: SE and SNE with a byte. -/
def Obligations.ImmediateSkips : Prop :=
  (∀ w : Word, fieldC w = 0x3 → decodeWord w = .ok (.se (fieldX w) (fieldKK w))) ∧
  (∀ w : Word, fieldC w = 0x4 → decodeWord w = .ok (.sne (fieldX w) (fieldKK w))) ∧
  (∀ (x : RegIx) (kk : Byte) (s : State), ∃ t, exec (.se x kk) s = .next t ∧
    PcBy (if s.getV x = kk then 4 else 2) s t ∧ SameBut [.pc] s t) ∧
  (∀ (x : RegIx) (kk : Byte) (s : State), ∃ t, exec (.sne x kk) s = .next t ∧
    PcBy (if s.getV x ≠ kk then 4 else 2) s t ∧ SameBut [.pc] s t)

/-- SE and SNE between registers, whatever the low nibble of the word is (the spec's own decision D11, log 11). -/
def Obligations.RegisterSkips : Prop :=
  (∀ (x y : RegIx) (n : Nibble), decodeWord (wordXYN 0x5 x y n) = .ok (.seReg x y) ∧
    decodeWord (wordXYN 0x9 x y n) = .ok (.sneReg x y)) ∧
  (∀ (x y : RegIx) (s : State), ∃ t, exec (.seReg x y) s = .next t ∧
    PcBy (if s.getV x = s.getV y then 4 else 2) s t ∧ SameBut [.pc] s t) ∧
  (∀ (x y : RegIx) (s : State), ∃ t, exec (.sneReg x y) s = .next t ∧
    PcBy (if s.getV x ≠ s.getV y then 4 else 2) s t ∧ SameBut [.pc] s t)

/-! ## Loads and the ALU -/

/-- R121, R122: LD and ADD with a byte; no flag. -/
def Obligations.ImmediateLoadAndAdd : Prop :=
  (∀ w : Word, fieldC w = 0x6 → decodeWord w = .ok (.ld (fieldX w) (fieldKK w))) ∧
  (∀ w : Word, fieldC w = 0x7 → decodeWord w = .ok (.add (fieldX w) (fieldKK w))) ∧
  (∀ (x : RegIx) (kk : Byte) (s : State), ∃ t, exec (.ld x kk) s = .next t ∧
    t.getV x = kk ∧ RegsBut [x] s t ∧ PcBy 2 s t ∧ SameBut [.regs, .pc] s t) ∧
  (∀ (x : RegIx) (kk : Byte) (s : State), ∃ t, exec (.add x kk) s = .next t ∧
    (t.getV x).toNat = ((s.getV x).toNat + kk.toNat) % 256 ∧ RegsBut [x] s t ∧ PcBy 2 s t ∧
    SameBut [.regs, .pc] s t)

/-- R123 to R126: LD, OR, AND and XOR between registers, bit by bit; no flag. -/
def Obligations.RegisterLogic : Prop :=
  (∀ x y : RegIx, decodeWord (wordXYN 0x8 x y 0x0) = .ok (.ldReg x y) ∧
    decodeWord (wordXYN 0x8 x y 0x1) = .ok (.orReg x y) ∧ decodeWord (wordXYN 0x8 x y 0x2) = .ok (.andReg x y) ∧
    decodeWord (wordXYN 0x8 x y 0x3) = .ok (.xorReg x y)) ∧
  (∀ (x y : RegIx) (s : State),
    (∃ t, exec (.ldReg x y) s = .next t ∧ t.getV x = s.getV y ∧
      RegsBut [x] s t ∧ PcBy 2 s t ∧ SameBut [.regs, .pc] s t) ∧
    (∃ t, exec (.orReg x y) s = .next t ∧
      (∀ i, (t.getV x).getLsbD i = ((s.getV x).getLsbD i || (s.getV y).getLsbD i)) ∧
      RegsBut [x] s t ∧ PcBy 2 s t ∧ SameBut [.regs, .pc] s t) ∧
    (∃ t, exec (.andReg x y) s = .next t ∧
      (∀ i, (t.getV x).getLsbD i = ((s.getV x).getLsbD i && (s.getV y).getLsbD i)) ∧
      RegsBut [x] s t ∧ PcBy 2 s t ∧ SameBut [.regs, .pc] s t) ∧
    (∃ t, exec (.xorReg x y) s = .next t ∧
      (∀ i, (t.getV x).getLsbD i = ((s.getV x).getLsbD i != (s.getV y).getLsbD i)) ∧
      RegsBut [x] s t ∧ PcBy 2 s t ∧ SameBut [.regs, .pc] s t))

/-- R127: ADD between registers; VF is the carry, also when X is 15. -/
def Obligations.AddRegSumAndCarry : Prop :=
  (∀ x y : RegIx, decodeWord (wordXYN 0x8 x y 0x4) = .ok (.addReg x y)) ∧
  (∀ (x y : RegIx) (s : State), ∃ t, exec (.addReg x y) s = .next t ∧
    (x ≠ 0xF#4 → (t.getV x).toNat = ((s.getV x).toNat + (s.getV y).toNat) % 256) ∧
    (t.getV 0xF#4).toNat = (if (s.getV x).toNat + (s.getV y).toNat > 255 then 1 else 0) ∧
    RegsBut [x, 0xF#4] s t ∧ PcBy 2 s t ∧ SameBut [.regs, .pc] s t)

/-- R128, R130: SUB and SUBN; VF is NOT borrow, also when X is 15. -/
def Obligations.SubtractionsAndNotBorrow : Prop :=
  (∀ x y : RegIx, decodeWord (wordXYN 0x8 x y 0x5) = .ok (.sub x y) ∧
    decodeWord (wordXYN 0x8 x y 0x7) = .ok (.subn x y)) ∧
  (∀ (x y : RegIx) (s : State), ∃ t, exec (.sub x y) s = .next t ∧
    (x ≠ 0xF#4 → ((t.getV x).toNat : Int) = ((s.getV x).toNat - (s.getV y).toNat : Int) % 256) ∧
    (t.getV 0xF#4).toNat = (if (s.getV x).toNat ≥ (s.getV y).toNat then 1 else 0) ∧
    RegsBut [x, 0xF#4] s t ∧ PcBy 2 s t ∧ SameBut [.regs, .pc] s t) ∧
  (∀ (x y : RegIx) (s : State), ∃ t, exec (.subn x y) s = .next t ∧
    (x ≠ 0xF#4 → ((t.getV x).toNat : Int) = ((s.getV y).toNat - (s.getV x).toNat : Int) % 256) ∧
    (t.getV 0xF#4).toNat = (if (s.getV y).toNat ≥ (s.getV x).toNat then 1 else 0) ∧
    RegsBut [x, 0xF#4] s t ∧ PcBy 2 s t ∧ SameBut [.regs, .pc] s t)

/-- R129, R131: SHR and SHL; VF is the bit shifted out, also when X is 15, and V[Y] is not read. -/
def Obligations.ShiftsAndShiftedOutBit : Prop :=
  (∀ x y : RegIx, decodeWord (wordXYN 0x8 x y 0x6) = .ok (.shr x y) ∧
    decodeWord (wordXYN 0x8 x y 0xE) = .ok (.shl x y)) ∧
  (∀ (x y : RegIx) (s : State), ∃ t, exec (.shr x y) s = .next t ∧
    (x ≠ 0xF#4 → (t.getV x).toNat = (s.getV x).toNat / 2) ∧ (t.getV 0xF#4).toNat = (s.getV x).toNat % 2 ∧
    RegsBut [x, 0xF#4] s t ∧ PcBy 2 s t ∧ SameBut [.regs, .pc] s t) ∧
  (∀ (x y : RegIx) (s : State), ∃ t, exec (.shl x y) s = .next t ∧
    (x ≠ 0xF#4 → (t.getV x).toNat = 2 * (s.getV x).toNat % 256) ∧ (t.getV 0xF#4).toNat = (s.getV x).toNat / 128 ∧
    RegsBut [x, 0xF#4] s t ∧ PcBy 2 s t ∧ SameBut [.regs, .pc] s t)

/-- R132: LD I zero-extends the address. -/
def Obligations.LoadIndexImmediate : Prop :=
  (∀ w : Word, fieldC w = 0xA → decodeWord w = .ok (.ldI (fieldNNN w))) ∧
  (∀ (nnn : Addr12) (s : State), ∃ t, exec (.ldI nnn) s = .next t ∧
    t.i.toNat = nnn.toNat ∧ PcBy 2 s t ∧ SameBut [.index, .pc] s t)

/-- RND: V[X] is the draw ANDed with KK: the byte lined up, whichever of the 256 it is, or the free byte where none is
(the spec's own decision D23; the model's form of the draw, log 9). Each execution takes one draw. -/
def Obligations.RndMasksOneDraw : Prop :=
  ∀ (x : RegIx) (kk : Byte) (s : State), ∃ t, exec (.rnd x kk) s = .next t ∧
    (∀ r rest, s.draws = r :: rest → t.getV x = r &&& kk ∧ t.draws = rest) ∧
    (s.draws = [] → t.getV x = Config.randomByte s.drawn &&& kk ∧ t.draws = []) ∧
    t.drawn = s.drawn + 1 ∧ RegsBut [x] s t ∧ PcBy 2 s t ∧ SameBut [.regs, .pc, .draws] s t

/-! ## Display -/

/-- R141: CLS. -/
def Obligations.ClsClearsEveryPixel : Prop :=
  decodeWord 0x00E0 = .ok .cls ∧
  ∀ s : State, ∃ t, exec .cls s = .next t ∧ (∀ x y, t.fb.pixel x y = false) ∧ PcBy 2 s t ∧
    SameBut [.screen, .pc] s t

/-- The drawing algorithm of R142 to R145: DRW inverts exactly the pixels that a set sprite bit lands on, at
column (V[X] + col) mod 64 and row (V[Y] + r) mod 32, VF is 1 exactly when one of them was 1, and X, Y and I are read
before VF is written (the spec's own decision D13). With N = 0 no pixel is covered (D14). I is unchanged (D17). -/
def Obligations.DrwXorsTheSpriteWithWrap : Prop :=
  ∀ (x y : RegIx) (n : Nibble) (s : State), ∃ t, exec (.drw x y n) s = .next t ∧
    (∀ px py, t.fb.pixel px py ≠ s.fb.pixel px py ↔
      Covers (fun r => s.memRead (s.i.toNat + r)) (s.getV x).toNat (s.getV y).toNat n.toNat px py) ∧
    ((t.getV 0xF#4 = 1 ∧ ∃ px py, s.fb.pixel px py = true ∧
        Covers (fun r => s.memRead (s.i.toNat + r)) (s.getV x).toNat (s.getV y).toNat n.toNat px py) ∨
      (t.getV 0xF#4 = 0 ∧ ∀ px py, s.fb.pixel px py = true →
        ¬ Covers (fun r => s.memRead (s.i.toNat + r)) (s.getV x).toNat (s.getV y).toNat n.toNat px py)) ∧
    RegsBut [0xF#4] s t ∧ PcBy 2 s t ∧ SameBut [.regs, .screen, .pc] s t

/-- Drawing the same sprite again at the same place, from any state with that screen, memory, I and origin, restores
every pixel, and reports a collision exactly when the sprite covers a pixel that was 0 before the first draw. (The spec's
own remark that the second draw reports a collision for every sprite with a set bit overlooks covered pixels that were all
1 before; the drawing algorithm decides: log 17.) -/
def Obligations.DrawingTwiceRestores : Prop :=
  ∀ (x y : RegIx) (n : Nibble) (s t u : State), exec (.drw x y n) s = .next t →
    Part.Same t u .screen → Part.Same t u .memory → Part.Same t u .index →
    u.getV x = s.getV x → u.getV y = s.getV y →
    ∃ v, exec (.drw x y n) u = .next v ∧ Part.Same s v .screen ∧
      (v.getV 0xF#4 = 1 ↔ ∃ px py, s.fb.pixel px py = false ∧
        Covers (fun r => s.memRead (s.i.toNat + r)) (s.getV x).toNat (s.getV y).toNat n.toNat px py)

/-! ## Input and timers -/

/-- SKP and SKNP test the key V[X] mod 16 (mod 16 is the spec's own decision D15). -/
def Obligations.KeySkips : Prop :=
  (∀ (x : RegIx) (s : State) (k : KeyIx), k.toNat = (s.getV x).toNat % 16 →
    ∃ t, exec (.skp x) s = .next t ∧ PcBy (if s.key k = true then 4 else 2) s t ∧ SameBut [.pc] s t) ∧
  (∀ (x : RegIx) (s : State) (k : KeyIx), k.toNat = (s.getV x).toNat % 16 →
    ∃ t, exec (.sknp x) s = .next t ∧ PcBy (if s.key k = true then 2 else 4) s t ∧ SameBut [.pc] s t)

/-- LD VX,K: the lowest pressed key goes to V[X] and PC advances; with no key pressed nothing changes at all (the
ascending scan and the level test are the spec's own decision D16). -/
def Obligations.KeyWaitTakesTheLowestKey : Prop :=
  (∀ (x : RegIx) (s : State) (k : KeyIx), s.key k = true → (∀ j : KeyIx, j.toNat < k.toNat → s.key j = false) →
    ∃ t, exec (.ldVxK x) s = .next t ∧ (t.getV x).toNat = k.toNat ∧ RegsBut [x] s t ∧ PcBy 2 s t ∧
      SameBut [.regs, .pc] s t) ∧
  (∀ (x : RegIx) (s : State), (∀ k, s.key k = false) → exec (.ldVxK x) s = .next s)

/-- R152, R154, R155: the timer moves; a nonzero ST turns `sound_active` on at once, 0 turns it off. -/
def Obligations.TimerMoves : Prop :=
  (∀ x : RegIx, decodeWord (wordXKK 0xF x 0x07) = .ok (.ldVxDt x) ∧ decodeWord (wordXKK 0xF x 0x15) = .ok (.ldDtVx x) ∧
    decodeWord (wordXKK 0xF x 0x18) = .ok (.ldStVx x)) ∧
  (∀ (x : RegIx) (s : State), ∃ t, exec (.ldVxDt x) s = .next t ∧
    t.getV x = s.dt ∧ RegsBut [x] s t ∧ PcBy 2 s t ∧ SameBut [.regs, .pc] s t) ∧
  (∀ (x : RegIx) (s : State), ∃ t, exec (.ldDtVx x) s = .next t ∧
    t.dt = s.getV x ∧ PcBy 2 s t ∧ SameBut [.dt, .pc] s t) ∧
  (∀ (x : RegIx) (s : State), ∃ t, exec (.ldStVx x) s = .next t ∧
    t.st = s.getV x ∧ (t.soundActive = true ↔ (s.getV x).toNat ≠ 0) ∧ PcBy 2 s t ∧ SameBut [.st, .pc] s t)

/-- R42: a tick lowers both timers by one, saturating at 0, and changes nothing else. -/
def Obligations.TickCountsDownToZero : Prop :=
  ∀ s : State, transact .tick s = .next (s.tick, .done) ∧ s.tick.dt.toNat = s.dt.toNat - 1 ∧
    s.tick.st.toNat = s.st.toNat - 1 ∧ SameBut [.dt, .st] s s.tick

/-- n ticks lower each timer by n, saturating at 0, also when they come through the schedule before a step. -/
def Obligations.ManyTicksCountDown : Prop :=
  ∀ (n : Nat) (s : State) (rest : List (List EnvEvent)), s.schedule = List.replicate n .tick :: rest →
    s.settle.dt.toNat = s.dt.toNat - n ∧ s.settle.st.toNat = s.st.toNat - n ∧
    SameBut [.dt, .st, .schedule] s s.settle

/-! ## The index register and memory transfers -/

/-- ADD I,VX: mod 0x10000, no flag (the width of the wrap is the spec's own decision D8). -/
def Obligations.AddToIndex : Prop :=
  ∀ (x : RegIx) (s : State), ∃ t, exec (.addIVx x) s = .next t ∧
    t.i.toNat = (s.i.toNat + (s.getV x).toNat) % 65536 ∧ PcBy 2 s t ∧ SameBut [.index, .pc] s t

/-- R162, R174: LD F,VX points I at the glyph, or reports OutOfBoundsFontIndex and changes nothing. -/
def Obligations.LoadFontAddress : Prop :=
  (∀ x : RegIx, decodeWord (wordXKK 0xF x 0x29) = .ok (.ldFVx x)) ∧
  (∀ (x : RegIx) (s : State), (s.getV x).toNat ≤ 15 →
    ∃ t, exec (.ldFVx x) s = .next t ∧ t.i.toNat = (s.getV x).toNat * 5 ∧ PcBy 2 s t ∧ SameBut [.index, .pc] s t) ∧
  (∀ (x : RegIx) (s : State), (s.getV x).toNat > 15 →
    ∃ t, exec (.ldFVx x) s = .next t ∧ Raised .outOfBoundsFontIndex s t)

/-- R163: LD B,VX stores the three digits at I, I + 1, I + 2, each address mod 4096, and no other byte; I is unchanged
(the spec's own decision D17). -/
def Obligations.StoreDecimalDigits : Prop :=
  (∀ x : RegIx, decodeWord (wordXKK 0xF x 0x33) = .ok (.ldBVx x)) ∧
  (∀ (x : RegIx) (s : State), s.Inv → ∃ t, exec (.ldBVx x) s = .next t ∧
    (t.memRead (s.i.toNat + 0)).toNat = (s.getV x).toNat / 100 ∧
    (t.memRead (s.i.toNat + 1)).toNat = (s.getV x).toNat / 10 % 10 ∧
    (t.memRead (s.i.toNat + 2)).toNat = (s.getV x).toNat % 10 ∧
    BytesBut [s.addrI 0, s.addrI 1, s.addrI 2] s t ∧ PcBy 2 s t ∧ SameBut [.memory, .pc] s t)

/-- R164: LD [I],VX stores V0..VX at I, I + 1, .., each address mod 4096, and no other byte; I is unchanged (the spec's own
decision D17). -/
def Obligations.StoreRegisterBlock : Prop :=
  (∀ x : RegIx, decodeWord (wordXKK 0xF x 0x55) = .ok (.ldMemVx x)) ∧
  (∀ (x : RegIx) (s : State), s.Inv → ∃ t, exec (.ldMemVx x) s = .next t ∧
    (∀ k : RegIx, k.toNat ≤ x.toNat → t.memRead (s.i.toNat + k.toNat) = s.getV k) ∧
    BytesBut ((List.range (x.toNat + 1)).map s.addrI) s t ∧ PcBy 2 s t ∧ SameBut [.memory, .pc] s t)

/-- R165: LD VX,[I] loads V0..VX from I, I + 1, .., each address mod 4096, and no other register; I is unchanged (the
spec's own decision D17). -/
def Obligations.LoadRegisterBlock : Prop :=
  (∀ x : RegIx, decodeWord (wordXKK 0xF x 0x65) = .ok (.ldVxMem x)) ∧
  (∀ (x : RegIx) (s : State), ∃ t, exec (.ldVxMem x) s = .next t ∧
    (∀ k : RegIx, t.getV k = if k.toNat ≤ x.toNat then s.memRead ((s.i.toNat + k.toNat) % 4096) else s.getV k) ∧
    PcBy 2 s t ∧ SameBut [.regs, .pc] s t)

/-- LD [I],VX and then LD VX,[I], from any state with that memory and that I, brings V0..VX back. -/
def Obligations.StoreThenLoadBringsRegistersBack : Prop :=
  ∀ (x : RegIx) (s t u : State), s.Inv → exec (.ldMemVx x) s = .next t →
    Part.Same t u .memory → Part.Same t u .index →
    ∃ v, exec (.ldVxMem x) u = .next v ∧ ∀ k : RegIx, k.toNat ≤ x.toNat → v.getV k = s.getV k

/-- A store is seen by the next fetch (R62): a byte that LD [I],VX stores, and a digit that LD B,VX stores, is the high byte
of the word fetched at its address and the low byte of the word fetched one address below. -/
def Obligations.StoresAreSeenByTheNextFetch : Prop :=
  (∀ (x k : RegIx) (s t : State) (a : Word), s.Inv → exec (.ldMemVx x) s = .next t → k.toNat ≤ x.toNat →
    (a.toNat % 4096 = (s.i.toNat + k.toNat) % 4096 → highByte (t.setPc a).fetchWord = s.getV k) ∧
    ((a.toNat + 1) % 4096 = (s.i.toNat + k.toNat) % 4096 → lowByte (t.setPc a).fetchWord = s.getV k)) ∧
  (∀ (x : RegIx) (k : Fin 3) (s t : State) (a : Word), s.Inv → exec (.ldBVx x) s = .next t →
    (a.toNat % 4096 = (s.i.toNat + k.val) % 4096 →
      (highByte (t.setPc a).fetchWord).toNat = (s.getV x).toNat / 10 ^ (2 - k.val) % 10) ∧
    ((a.toNat + 1) % 4096 = (s.i.toNat + k.val) % 4096 →
      (lowByte (t.setPc a).fetchWord).toNat = (s.getV x).toNat / 10 ^ (2 - k.val) % 10))

/-! ## Reset, launch and the interface -/

/-- Reset, with every value that the spec leaves open as an argument: PC 0x200, SP 0, every pixel 0, ERR.code 0, the font
at 0x000..0x04F (PC and SP are the spec's own decisions D2 and D5). -/
def Obligations.ResetLeavesTheSpecsState : Prop :=
  ∀ p : ResetParams, let s := State.resetWith p
    s.pc.toNat = 0x200 ∧ s.sp.val = 0 ∧ (∀ x y, s.fb.pixel x y = false) ∧ s.err.code = .none ∧
    (∀ j : RegIx, s.getV j = p.v[j.toNat]) ∧ s.i = p.i ∧ s.dt = p.dt ∧ s.st = p.st ∧
    (∀ k : KeyIx, s.key k = p.keys[k.toNat]) ∧ s.stack = p.stack ∧
    (∀ a : Fin 80, s.memRead a.val = p.font[a]) ∧ (∀ a, 80 ≤ a → a < 4096 → s.memRead a = p.mem a)

/-- `State.reset` is reset at the model's own choice of the open values (log 2 to log 7), not the spec's. -/
def Obligations.ResetIsTheDefaultLaunchState : Prop :=
  State.reset = State.resetWith ResetParams.default

/-- The launch: image byte k is at 0x200 + k, every other byte and all other state is reset's; an image that does not fit
is refused (the spec's own decision D24; log 13). -/
def Obligations.LaunchLoadsTheImage : Prop :=
  (∀ (p : ResetParams) (image : List Byte), image.length ≤ 3584 →
    ∃ t, launch p image = .next t ∧ (∀ k (h : k < image.length), t.memRead (0x200 + k) = image[k]) ∧
      (∀ a, a < 4096 → a < 0x200 ∨ 0x200 + image.length ≤ a → t.memRead a = (State.resetWith p).memRead a) ∧
      SameBut [.memory] (State.resetWith p) t) ∧
  (∀ (p : ResetParams) (image : List Byte), image.length > 3584 →
    launch p image = .refused (.imageTooLong image.length))

/-- R46: `fb_read` answers the pixel and changes nothing. Beside it `sound_active` is ST != 0. -/
def Obligations.ReadOnlyPorts : Prop :=
  (∀ (s : State) (x : Fin 64) (y : Fin 32), transact (.fbRead x y) s = .next (s, .pixel (s.fb.pixel x y))) ∧
  (∀ s : State, s.soundActive = true ↔ s.st.toNat ≠ 0)

/-- `key_set` writes the one key and nothing else (the spec's own decision D22). -/
def Obligations.KeySetWritesOneKey : Prop :=
  ∀ (s : State) (k : KeyIx) (pressed : Bool), ∃ t, transact (.keySet k pressed) s = .next (t, .done) ∧
    t.key k = pressed ∧ (∀ j, j ≠ k → t.key j = s.key j) ∧ SameBut [.keys] s t

/-- The embedding's `error_policy`: without an error the step stands; after one, `halt` and `propagate` end the run with
the report, and `skip` advances PC by 2 and changes nothing else (the spec's own decision D19; log 10). -/
def Obligations.ErrorPolicyAfterAStep : Prop :=
  ∀ s t : State, step s = .next t →
    (t.good → ∀ policy, stepUnder policy s = .next t) ∧
    (¬ t.good → stepUnder .halt s = .fault (.halted t.err) ∧ stepUnder .propagate s = .fault (.propagated t.err) ∧
      ∃ u, stepUnder .skip s = .next u ∧ PcBy 2 t u ∧ SameBut [.pc] t u)

/-- A word placed where the next step fetches is the instruction that step runs (the model's load, log 16). -/
def Obligations.PlacedWordRunsNext : Prop :=
  ∀ (s : State) (nbits w : Nat) (i : Instr), s.Inv → decodeTableWord nbits w = some i →
    ∃ u, step (s.withFetchWord nbits w) = exec i u ∧ u.pc = s.settle.pc ∧ SameBut [.memory, .err] s.settle u ∧
      BytesBut [s.settle.pc.toNat, s.settle.pc.toNat + 1] s.settle u

/-- The reset, load, step and skip_error transactions. `reset` leaves the core as reset at its open values, and what the
environment has lined up as it was (the model's choice, log 8 and log 9); `load` writes one byte, at any time (the model's
choice after the first step, log 18); `step` answers the step's state, with `ok` or the error in ERR; `skip_error` moves PC by
2 (the spec's own decision D19). -/
def Obligations.ResetLoadStepAndSkipTransactions : Prop :=
  (∀ (p : ResetParams) (s : State), ∃ t, transact (.reset p) s = .next (t, .done) ∧
    SameBut [.schedule, .draws] (State.resetWith p) t ∧ Part.Same s t .schedule ∧ Part.Same s t .draws) ∧
  (∀ (a : Nat) (b : Byte) (s : State), s.Inv → ∃ t, transact (.load a b) s = .next (t, .done) ∧
    t.memRead a = b ∧ BytesBut [a] s t ∧ SameBut [.memory] s t) ∧
  (∀ s : State, ∃ t, step s = .next t ∧
    ((t.err.code = .none ∧ transact .step s = .next (t, .ok)) ∨
      (t.err.code ≠ .none ∧ transact .step s = .next (t, .error t.err.code t.err.pc t.err.word)))) ∧
  (∀ s : State, ∃ t, transact .skipError s = .next (t, .done) ∧ PcBy 2 s t ∧ SameBut [.pc] s t)

/-- What the environment has scheduled before a step takes effect one event after another, in order: a tick lowers the
timers, a key_set writes its key, a skip_error moves PC by 2 (the spec's own decisions D19 and D22), each from what the
event before it left, and nothing else changes; then the step's turn is over. The schedule is the model's own (log 8). -/
def Obligations.ScheduledEventsTakeEffectInOrder : Prop :=
  (∀ (s : State) (rest : List (List EnvEvent)), s.schedule = [] :: rest →
    SameBut [.schedule] s s.settle ∧ s.settle.schedule = rest) ∧
  (∀ (s : State) (es : List EnvEvent) (rest : List (List EnvEvent)), s.schedule = (.tick :: es) :: rest →
    ∃ u, s.settle = u.settle ∧ u.schedule = es :: rest ∧ SameBut [.dt, .st, .schedule] s u ∧
      u.dt.toNat = s.dt.toNat - 1 ∧ u.st.toNat = s.st.toNat - 1) ∧
  (∀ (s : State) (k : KeyIx) (pressed : Bool) (es : List EnvEvent) (rest : List (List EnvEvent)),
    s.schedule = (.keySet k pressed :: es) :: rest →
    ∃ u, s.settle = u.settle ∧ u.schedule = es :: rest ∧ SameBut [.keys, .schedule] s u ∧
      u.key k = pressed ∧ ∀ j, j ≠ k → u.key j = s.key j) ∧
  (∀ (s : State) (es : List EnvEvent) (rest : List (List EnvEvent)), s.schedule = (.skipError :: es) :: rest →
    ∃ u, s.settle = u.settle ∧ u.schedule = es :: rest ∧ SameBut [.pc, .schedule] s u ∧ PcBy 2 s u)
end

