-- ==== Sys2Proof/Laws/Decode.lean ====
section
/-! SUPPORT. The fields of the words that the encoder builds, and the bytes of a word. -/

namespace Sys2Proof

/-- The bytes of a word put together again (20_memory.md R51). -/
@[simp] theorem wordOfBytes_high_low (w : Word) : wordOfBytes (highByte w) (lowByte w) = w := by
  apply BitVec.eq_of_getLsbD_eq
  intro i hi
  simp only [wordOfBytes, highByte, lowByte, BitVec.getLsbD_append, BitVec.getLsbD_extractLsb']
  by_cases h : i < 8
  · simp [h]
  · simp [h, show i - 8 < 8 by omega, show 8 + (i - 8) = i by omega]

@[simp] theorem fieldC_wordNNN (c : BitVec 4) (n : Addr12) : fieldC (wordNNN c n) = c := by
  apply BitVec.eq_of_getLsbD_eq
  intro i hi
  simp only [fieldC, wordNNN, BitVec.getLsbD_append, BitVec.getLsbD_extractLsb']
  simp [hi]

@[simp] theorem fieldNNN_wordNNN (c : BitVec 4) (n : Addr12) : fieldNNN (wordNNN c n) = n := by
  apply BitVec.eq_of_getLsbD_eq
  intro i hi
  simp only [fieldNNN, wordNNN, BitVec.getLsbD_append, BitVec.getLsbD_extractLsb']
  simp [hi]

@[simp] theorem fieldC_wordXKK (c x : BitVec 4) (kk : Byte) : fieldC (wordXKK c x kk) = c := by
  apply BitVec.eq_of_getLsbD_eq
  intro i hi
  simp only [fieldC, wordXKK, BitVec.getLsbD_append, BitVec.getLsbD_extractLsb']
  simp [hi, show ¬ 12 + i < 8 by omega,
    show ¬ 12 + i - 8 < 4 by omega, show 12 + i - 8 - 4 = i by omega]

@[simp] theorem fieldX_wordXKK (c x : BitVec 4) (kk : Byte) : fieldX (wordXKK c x kk) = x := by
  apply BitVec.eq_of_getLsbD_eq
  intro i hi
  simp only [fieldX, wordXKK, BitVec.getLsbD_append, BitVec.getLsbD_extractLsb']
  simp [hi]

@[simp] theorem fieldKK_wordXKK (c x : BitVec 4) (kk : Byte) : fieldKK (wordXKK c x kk) = kk := by
  apply BitVec.eq_of_getLsbD_eq
  intro i hi
  simp only [fieldKK, wordXKK, BitVec.getLsbD_append, BitVec.getLsbD_extractLsb']
  simp [hi]

@[simp] theorem fieldC_wordXYN (c x y n : BitVec 4) : fieldC (wordXYN c x y n) = c := by
  apply BitVec.eq_of_getLsbD_eq
  intro i hi
  simp only [fieldC, wordXYN, BitVec.getLsbD_append, BitVec.getLsbD_extractLsb']
  simp [hi, show ¬ 12 + i < 8 by omega,
    show ¬ 12 + i - 8 < 4 by omega, show 12 + i - 8 - 4 = i by omega]

@[simp] theorem fieldX_wordXYN (c x y n : BitVec 4) : fieldX (wordXYN c x y n) = x := by
  apply BitVec.eq_of_getLsbD_eq
  intro i hi
  simp only [fieldX, wordXYN, BitVec.getLsbD_append, BitVec.getLsbD_extractLsb']
  simp [hi]

@[simp] theorem fieldY_wordXYN (c x y n : BitVec 4) : fieldY (wordXYN c x y n) = y := by
  apply BitVec.eq_of_getLsbD_eq
  intro i hi
  simp only [fieldY, wordXYN, BitVec.getLsbD_append, BitVec.getLsbD_extractLsb']
  simp [hi, show 4 + i < 8 by omega]

@[simp] theorem fieldN_wordXYN (c x y n : BitVec 4) : fieldN (wordXYN c x y n) = n := by
  apply BitVec.eq_of_getLsbD_eq
  intro i hi
  simp only [fieldN, wordXYN, BitVec.getLsbD_append, BitVec.getLsbD_extractLsb']
  simp [hi, show i < 8 by omega]

/-- A word is its class and its address field. -/
theorem wordNNN_fields (w : Word) : wordNNN (fieldC w) (fieldNNN w) = w := by
  apply BitVec.eq_of_getLsbD_eq
  intro i hi
  simp only [wordNNN, fieldC, fieldNNN, BitVec.getLsbD_append, BitVec.getLsbD_extractLsb']
  by_cases h : i < 12
  · simp [h]
  · simp [h, show i - 12 < 4 by omega, show 12 + (i - 12) = i by omega]

/-- A word is its class, its register and its byte. -/
theorem wordXKK_fields (w : Word) : wordXKK (fieldC w) (fieldX w) (fieldKK w) = w := by
  apply BitVec.eq_of_getLsbD_eq
  intro i hi
  simp only [wordXKK, fieldC, fieldX, fieldKK, BitVec.getLsbD_append, BitVec.getLsbD_extractLsb']
  by_cases h : i < 8
  · simp [h]
  · by_cases h4 : i - 8 < 4
    · simp [h, h4, show 8 + (i - 8) = i by omega]
    · simp [h, h4, show i - 8 - 4 < 4 by omega, show 12 + (i - 8 - 4) = i by omega]

/-- A word is its class, its two registers and its nibble. -/
theorem wordXYN_fields (w : Word) : wordXYN (fieldC w) (fieldX w) (fieldY w) (fieldN w) = w := by
  apply BitVec.eq_of_getLsbD_eq
  intro i hi
  simp only [wordXYN, fieldC, fieldX, fieldY, fieldN, BitVec.getLsbD_append, BitVec.getLsbD_extractLsb']
  by_cases h : i < 8
  · by_cases h4 : i < 4
    · simp [h, h4]
    · simp [h, h4, show i - 4 < 4 by omega, show 4 + (i - 4) = i by omega]
  · by_cases h4 : i - 8 < 4
    · simp [h, h4, show 8 + (i - 8) = i by omega]
    · simp [h, h4, show i - 8 - 4 < 4 by omega, show 12 + (i - 8 - 4) = i by omega]

end Sys2Proof
end

