-- ==== Sys2Proof/Laws/State.lean ====
section
/-! SUPPORT. One lemma for each field of State and each named update, true by definition, so that no later proof unfolds
a record update; then what the accessors read after the updates. -/

namespace Sys2Proof.Machine.State

open Sys2Proof

variable (s : State)

/-! ### setV -/

@[simp] theorem setV_v (x : RegIx) (b : Byte) : (s.setV x b).v = s.v.set x.toNat b := rfl
@[simp] theorem setV_i (x : RegIx) (b : Byte) : (s.setV x b).i = s.i := rfl
@[simp] theorem setV_pc (x : RegIx) (b : Byte) : (s.setV x b).pc = s.pc := rfl
@[simp] theorem setV_sp (x : RegIx) (b : Byte) : (s.setV x b).sp = s.sp := rfl
@[simp] theorem setV_stack (x : RegIx) (b : Byte) : (s.setV x b).stack = s.stack := rfl
@[simp] theorem setV_dt (x : RegIx) (b : Byte) : (s.setV x b).dt = s.dt := rfl
@[simp] theorem setV_st (x : RegIx) (b : Byte) : (s.setV x b).st = s.st := rfl
@[simp] theorem setV_mem (x : RegIx) (b : Byte) : (s.setV x b).mem = s.mem := rfl
@[simp] theorem setV_fb (x : RegIx) (b : Byte) : (s.setV x b).fb = s.fb := rfl
@[simp] theorem setV_keys (x : RegIx) (b : Byte) : (s.setV x b).keys = s.keys := rfl
@[simp] theorem setV_err (x : RegIx) (b : Byte) : (s.setV x b).err = s.err := rfl
@[simp] theorem setV_schedule (x : RegIx) (b : Byte) : (s.setV x b).schedule = s.schedule := rfl
@[simp] theorem setV_draws (x : RegIx) (b : Byte) : (s.setV x b).draws = s.draws := rfl
@[simp] theorem setV_drawn (x : RegIx) (b : Byte) : (s.setV x b).drawn = s.drawn := rfl

/-! ### setI -/

@[simp] theorem setI_v (w : Word) : (s.setI w).v = s.v := rfl
@[simp] theorem setI_i (w : Word) : (s.setI w).i = w := rfl
@[simp] theorem setI_pc (w : Word) : (s.setI w).pc = s.pc := rfl
@[simp] theorem setI_sp (w : Word) : (s.setI w).sp = s.sp := rfl
@[simp] theorem setI_stack (w : Word) : (s.setI w).stack = s.stack := rfl
@[simp] theorem setI_dt (w : Word) : (s.setI w).dt = s.dt := rfl
@[simp] theorem setI_st (w : Word) : (s.setI w).st = s.st := rfl
@[simp] theorem setI_mem (w : Word) : (s.setI w).mem = s.mem := rfl
@[simp] theorem setI_fb (w : Word) : (s.setI w).fb = s.fb := rfl
@[simp] theorem setI_keys (w : Word) : (s.setI w).keys = s.keys := rfl
@[simp] theorem setI_err (w : Word) : (s.setI w).err = s.err := rfl
@[simp] theorem setI_schedule (w : Word) : (s.setI w).schedule = s.schedule := rfl
@[simp] theorem setI_draws (w : Word) : (s.setI w).draws = s.draws := rfl
@[simp] theorem setI_drawn (w : Word) : (s.setI w).drawn = s.drawn := rfl

/-! ### setDt -/

@[simp] theorem setDt_v (b : Byte) : (s.setDt b).v = s.v := rfl
@[simp] theorem setDt_i (b : Byte) : (s.setDt b).i = s.i := rfl
@[simp] theorem setDt_pc (b : Byte) : (s.setDt b).pc = s.pc := rfl
@[simp] theorem setDt_sp (b : Byte) : (s.setDt b).sp = s.sp := rfl
@[simp] theorem setDt_stack (b : Byte) : (s.setDt b).stack = s.stack := rfl
@[simp] theorem setDt_dt (b : Byte) : (s.setDt b).dt = b := rfl
@[simp] theorem setDt_st (b : Byte) : (s.setDt b).st = s.st := rfl
@[simp] theorem setDt_mem (b : Byte) : (s.setDt b).mem = s.mem := rfl
@[simp] theorem setDt_fb (b : Byte) : (s.setDt b).fb = s.fb := rfl
@[simp] theorem setDt_keys (b : Byte) : (s.setDt b).keys = s.keys := rfl
@[simp] theorem setDt_err (b : Byte) : (s.setDt b).err = s.err := rfl
@[simp] theorem setDt_schedule (b : Byte) : (s.setDt b).schedule = s.schedule := rfl
@[simp] theorem setDt_draws (b : Byte) : (s.setDt b).draws = s.draws := rfl
@[simp] theorem setDt_drawn (b : Byte) : (s.setDt b).drawn = s.drawn := rfl

/-! ### setSt -/

@[simp] theorem setSt_v (b : Byte) : (s.setSt b).v = s.v := rfl
@[simp] theorem setSt_i (b : Byte) : (s.setSt b).i = s.i := rfl
@[simp] theorem setSt_pc (b : Byte) : (s.setSt b).pc = s.pc := rfl
@[simp] theorem setSt_sp (b : Byte) : (s.setSt b).sp = s.sp := rfl
@[simp] theorem setSt_stack (b : Byte) : (s.setSt b).stack = s.stack := rfl
@[simp] theorem setSt_dt (b : Byte) : (s.setSt b).dt = s.dt := rfl
@[simp] theorem setSt_st (b : Byte) : (s.setSt b).st = b := rfl
@[simp] theorem setSt_mem (b : Byte) : (s.setSt b).mem = s.mem := rfl
@[simp] theorem setSt_fb (b : Byte) : (s.setSt b).fb = s.fb := rfl
@[simp] theorem setSt_keys (b : Byte) : (s.setSt b).keys = s.keys := rfl
@[simp] theorem setSt_err (b : Byte) : (s.setSt b).err = s.err := rfl
@[simp] theorem setSt_schedule (b : Byte) : (s.setSt b).schedule = s.schedule := rfl
@[simp] theorem setSt_draws (b : Byte) : (s.setSt b).draws = s.draws := rfl
@[simp] theorem setSt_drawn (b : Byte) : (s.setSt b).drawn = s.drawn := rfl

/-! ### setPc -/

@[simp] theorem setPc_v (w : Word) : (s.setPc w).v = s.v := rfl
@[simp] theorem setPc_i (w : Word) : (s.setPc w).i = s.i := rfl
@[simp] theorem setPc_pc (w : Word) : (s.setPc w).pc = w := rfl
@[simp] theorem setPc_sp (w : Word) : (s.setPc w).sp = s.sp := rfl
@[simp] theorem setPc_stack (w : Word) : (s.setPc w).stack = s.stack := rfl
@[simp] theorem setPc_dt (w : Word) : (s.setPc w).dt = s.dt := rfl
@[simp] theorem setPc_st (w : Word) : (s.setPc w).st = s.st := rfl
@[simp] theorem setPc_mem (w : Word) : (s.setPc w).mem = s.mem := rfl
@[simp] theorem setPc_fb (w : Word) : (s.setPc w).fb = s.fb := rfl
@[simp] theorem setPc_keys (w : Word) : (s.setPc w).keys = s.keys := rfl
@[simp] theorem setPc_err (w : Word) : (s.setPc w).err = s.err := rfl
@[simp] theorem setPc_schedule (w : Word) : (s.setPc w).schedule = s.schedule := rfl
@[simp] theorem setPc_draws (w : Word) : (s.setPc w).draws = s.draws := rfl
@[simp] theorem setPc_drawn (w : Word) : (s.setPc w).drawn = s.drawn := rfl

/-! ### push -/

@[simp] theorem push_v (w : Word) (h : s.sp.val < 16) : (s.push w h).v = s.v := rfl
@[simp] theorem push_i (w : Word) (h : s.sp.val < 16) : (s.push w h).i = s.i := rfl
@[simp] theorem push_pc (w : Word) (h : s.sp.val < 16) : (s.push w h).pc = s.pc := rfl
@[simp] theorem push_sp (w : Word) (h : s.sp.val < 16) : (s.push w h).sp = ⟨s.sp.val + 1, by omega⟩ := rfl
@[simp] theorem push_stack (w : Word) (h : s.sp.val < 16) : (s.push w h).stack = s.stack.set s.sp.val w := rfl
@[simp] theorem push_dt (w : Word) (h : s.sp.val < 16) : (s.push w h).dt = s.dt := rfl
@[simp] theorem push_st (w : Word) (h : s.sp.val < 16) : (s.push w h).st = s.st := rfl
@[simp] theorem push_mem (w : Word) (h : s.sp.val < 16) : (s.push w h).mem = s.mem := rfl
@[simp] theorem push_fb (w : Word) (h : s.sp.val < 16) : (s.push w h).fb = s.fb := rfl
@[simp] theorem push_keys (w : Word) (h : s.sp.val < 16) : (s.push w h).keys = s.keys := rfl
@[simp] theorem push_err (w : Word) (h : s.sp.val < 16) : (s.push w h).err = s.err := rfl
@[simp] theorem push_schedule (w : Word) (h : s.sp.val < 16) : (s.push w h).schedule = s.schedule := rfl
@[simp] theorem push_draws (w : Word) (h : s.sp.val < 16) : (s.push w h).draws = s.draws := rfl
@[simp] theorem push_drawn (w : Word) (h : s.sp.val < 16) : (s.push w h).drawn = s.drawn := rfl

/-! ### pop -/

@[simp] theorem pop_v : (s.pop).v = s.v := rfl
@[simp] theorem pop_i : (s.pop).i = s.i := rfl
@[simp] theorem pop_pc : (s.pop).pc = s.pc := rfl
@[simp] theorem pop_sp : (s.pop).sp = ⟨s.sp.val - 1, by have := s.sp.isLt; omega⟩ := rfl
@[simp] theorem pop_stack : (s.pop).stack = s.stack := rfl
@[simp] theorem pop_dt : (s.pop).dt = s.dt := rfl
@[simp] theorem pop_st : (s.pop).st = s.st := rfl
@[simp] theorem pop_mem : (s.pop).mem = s.mem := rfl
@[simp] theorem pop_fb : (s.pop).fb = s.fb := rfl
@[simp] theorem pop_keys : (s.pop).keys = s.keys := rfl
@[simp] theorem pop_err : (s.pop).err = s.err := rfl
@[simp] theorem pop_schedule : (s.pop).schedule = s.schedule := rfl
@[simp] theorem pop_draws : (s.pop).draws = s.draws := rfl
@[simp] theorem pop_drawn : (s.pop).drawn = s.drawn := rfl

/-! ### setFb -/

@[simp] theorem setFb_v (fb : Framebuffer) : (s.setFb fb).v = s.v := rfl
@[simp] theorem setFb_i (fb : Framebuffer) : (s.setFb fb).i = s.i := rfl
@[simp] theorem setFb_pc (fb : Framebuffer) : (s.setFb fb).pc = s.pc := rfl
@[simp] theorem setFb_sp (fb : Framebuffer) : (s.setFb fb).sp = s.sp := rfl
@[simp] theorem setFb_stack (fb : Framebuffer) : (s.setFb fb).stack = s.stack := rfl
@[simp] theorem setFb_dt (fb : Framebuffer) : (s.setFb fb).dt = s.dt := rfl
@[simp] theorem setFb_st (fb : Framebuffer) : (s.setFb fb).st = s.st := rfl
@[simp] theorem setFb_mem (fb : Framebuffer) : (s.setFb fb).mem = s.mem := rfl
@[simp] theorem setFb_fb (fb : Framebuffer) : (s.setFb fb).fb = fb := rfl
@[simp] theorem setFb_keys (fb : Framebuffer) : (s.setFb fb).keys = s.keys := rfl
@[simp] theorem setFb_err (fb : Framebuffer) : (s.setFb fb).err = s.err := rfl
@[simp] theorem setFb_schedule (fb : Framebuffer) : (s.setFb fb).schedule = s.schedule := rfl
@[simp] theorem setFb_draws (fb : Framebuffer) : (s.setFb fb).draws = s.draws := rfl
@[simp] theorem setFb_drawn (fb : Framebuffer) : (s.setFb fb).drawn = s.drawn := rfl

/-! ### keySet -/

@[simp] theorem keySet_v (k : KeyIx) (p : Bool) : (s.keySet k p).v = s.v := rfl
@[simp] theorem keySet_i (k : KeyIx) (p : Bool) : (s.keySet k p).i = s.i := rfl
@[simp] theorem keySet_pc (k : KeyIx) (p : Bool) : (s.keySet k p).pc = s.pc := rfl
@[simp] theorem keySet_sp (k : KeyIx) (p : Bool) : (s.keySet k p).sp = s.sp := rfl
@[simp] theorem keySet_stack (k : KeyIx) (p : Bool) : (s.keySet k p).stack = s.stack := rfl
@[simp] theorem keySet_dt (k : KeyIx) (p : Bool) : (s.keySet k p).dt = s.dt := rfl
@[simp] theorem keySet_st (k : KeyIx) (p : Bool) : (s.keySet k p).st = s.st := rfl
@[simp] theorem keySet_mem (k : KeyIx) (p : Bool) : (s.keySet k p).mem = s.mem := rfl
@[simp] theorem keySet_fb (k : KeyIx) (p : Bool) : (s.keySet k p).fb = s.fb := rfl
@[simp] theorem keySet_keys (k : KeyIx) (p : Bool) : (s.keySet k p).keys = s.keys.set k.toNat p := rfl
@[simp] theorem keySet_err (k : KeyIx) (p : Bool) : (s.keySet k p).err = s.err := rfl
@[simp] theorem keySet_schedule (k : KeyIx) (p : Bool) : (s.keySet k p).schedule = s.schedule := rfl
@[simp] theorem keySet_draws (k : KeyIx) (p : Bool) : (s.keySet k p).draws = s.draws := rfl
@[simp] theorem keySet_drawn (k : KeyIx) (p : Bool) : (s.keySet k p).drawn = s.drawn := rfl

/-! ### drawTaken -/

@[simp] theorem drawTaken_v : (s.drawTaken).v = s.v := rfl
@[simp] theorem drawTaken_i : (s.drawTaken).i = s.i := rfl
@[simp] theorem drawTaken_pc : (s.drawTaken).pc = s.pc := rfl
@[simp] theorem drawTaken_sp : (s.drawTaken).sp = s.sp := rfl
@[simp] theorem drawTaken_stack : (s.drawTaken).stack = s.stack := rfl
@[simp] theorem drawTaken_dt : (s.drawTaken).dt = s.dt := rfl
@[simp] theorem drawTaken_st : (s.drawTaken).st = s.st := rfl
@[simp] theorem drawTaken_mem : (s.drawTaken).mem = s.mem := rfl
@[simp] theorem drawTaken_fb : (s.drawTaken).fb = s.fb := rfl
@[simp] theorem drawTaken_keys : (s.drawTaken).keys = s.keys := rfl
@[simp] theorem drawTaken_err : (s.drawTaken).err = s.err := rfl
@[simp] theorem drawTaken_schedule : (s.drawTaken).schedule = s.schedule := rfl
@[simp] theorem drawTaken_draws : (s.drawTaken).draws = s.draws.tail := rfl
@[simp] theorem drawTaken_drawn : (s.drawTaken).drawn = s.drawn + 1 := rfl

/-! ### raise -/

@[simp] theorem raise_v (c : ErrCode) : (s.raise c).v = s.v := rfl
@[simp] theorem raise_i (c : ErrCode) : (s.raise c).i = s.i := rfl
@[simp] theorem raise_pc (c : ErrCode) : (s.raise c).pc = s.pc := rfl
@[simp] theorem raise_sp (c : ErrCode) : (s.raise c).sp = s.sp := rfl
@[simp] theorem raise_stack (c : ErrCode) : (s.raise c).stack = s.stack := rfl
@[simp] theorem raise_dt (c : ErrCode) : (s.raise c).dt = s.dt := rfl
@[simp] theorem raise_st (c : ErrCode) : (s.raise c).st = s.st := rfl
@[simp] theorem raise_mem (c : ErrCode) : (s.raise c).mem = s.mem := rfl
@[simp] theorem raise_fb (c : ErrCode) : (s.raise c).fb = s.fb := rfl
@[simp] theorem raise_keys (c : ErrCode) : (s.raise c).keys = s.keys := rfl
@[simp] theorem raise_err (c : ErrCode) : (s.raise c).err = ⟨c, s.pc, s.fetchWord⟩ := rfl
@[simp] theorem raise_schedule (c : ErrCode) : (s.raise c).schedule = s.schedule := rfl
@[simp] theorem raise_draws (c : ErrCode) : (s.raise c).draws = s.draws := rfl
@[simp] theorem raise_drawn (c : ErrCode) : (s.raise c).drawn = s.drawn := rfl

/-! ### clearErr -/

@[simp] theorem clearErr_v : (s.clearErr).v = s.v := rfl
@[simp] theorem clearErr_i : (s.clearErr).i = s.i := rfl
@[simp] theorem clearErr_pc : (s.clearErr).pc = s.pc := rfl
@[simp] theorem clearErr_sp : (s.clearErr).sp = s.sp := rfl
@[simp] theorem clearErr_stack : (s.clearErr).stack = s.stack := rfl
@[simp] theorem clearErr_dt : (s.clearErr).dt = s.dt := rfl
@[simp] theorem clearErr_st : (s.clearErr).st = s.st := rfl
@[simp] theorem clearErr_mem : (s.clearErr).mem = s.mem := rfl
@[simp] theorem clearErr_fb : (s.clearErr).fb = s.fb := rfl
@[simp] theorem clearErr_keys : (s.clearErr).keys = s.keys := rfl
@[simp] theorem clearErr_err : (s.clearErr).err = { s.err with code := .none } := rfl
@[simp] theorem clearErr_schedule : (s.clearErr).schedule = s.schedule := rfl
@[simp] theorem clearErr_draws : (s.clearErr).draws = s.draws := rfl
@[simp] theorem clearErr_drawn : (s.clearErr).drawn = s.drawn := rfl

/-! ### tick -/

@[simp] theorem tick_v : (s.tick).v = s.v := rfl
@[simp] theorem tick_i : (s.tick).i = s.i := rfl
@[simp] theorem tick_pc : (s.tick).pc = s.pc := rfl
@[simp] theorem tick_sp : (s.tick).sp = s.sp := rfl
@[simp] theorem tick_stack : (s.tick).stack = s.stack := rfl
@[simp] theorem tick_dt : (s.tick).dt = countDown s.dt := rfl
@[simp] theorem tick_st : (s.tick).st = countDown s.st := rfl
@[simp] theorem tick_mem : (s.tick).mem = s.mem := rfl
@[simp] theorem tick_fb : (s.tick).fb = s.fb := rfl
@[simp] theorem tick_keys : (s.tick).keys = s.keys := rfl
@[simp] theorem tick_err : (s.tick).err = s.err := rfl
@[simp] theorem tick_schedule : (s.tick).schedule = s.schedule := rfl
@[simp] theorem tick_draws : (s.tick).draws = s.draws := rfl
@[simp] theorem tick_drawn : (s.tick).drawn = s.drawn := rfl

/-! ### skipError -/

@[simp] theorem skipError_v : (s.skipError).v = s.v := rfl
@[simp] theorem skipError_i : (s.skipError).i = s.i := rfl
@[simp] theorem skipError_pc : (s.skipError).pc = s.pc + 2#16 := rfl
@[simp] theorem skipError_sp : (s.skipError).sp = s.sp := rfl
@[simp] theorem skipError_stack : (s.skipError).stack = s.stack := rfl
@[simp] theorem skipError_dt : (s.skipError).dt = s.dt := rfl
@[simp] theorem skipError_st : (s.skipError).st = s.st := rfl
@[simp] theorem skipError_mem : (s.skipError).mem = s.mem := rfl
@[simp] theorem skipError_fb : (s.skipError).fb = s.fb := rfl
@[simp] theorem skipError_keys : (s.skipError).keys = s.keys := rfl
@[simp] theorem skipError_err : (s.skipError).err = s.err := rfl
@[simp] theorem skipError_schedule : (s.skipError).schedule = s.schedule := rfl
@[simp] theorem skipError_draws : (s.skipError).draws = s.draws := rfl
@[simp] theorem skipError_drawn : (s.skipError).drawn = s.drawn := rfl

/-! ### memWrite -/

@[simp] theorem memWrite_v (a : Nat) (b : Byte) : (s.memWrite a b).v = s.v := rfl
@[simp] theorem memWrite_i (a : Nat) (b : Byte) : (s.memWrite a b).i = s.i := rfl
@[simp] theorem memWrite_pc (a : Nat) (b : Byte) : (s.memWrite a b).pc = s.pc := rfl
@[simp] theorem memWrite_sp (a : Nat) (b : Byte) : (s.memWrite a b).sp = s.sp := rfl
@[simp] theorem memWrite_stack (a : Nat) (b : Byte) : (s.memWrite a b).stack = s.stack := rfl
@[simp] theorem memWrite_dt (a : Nat) (b : Byte) : (s.memWrite a b).dt = s.dt := rfl
@[simp] theorem memWrite_st (a : Nat) (b : Byte) : (s.memWrite a b).st = s.st := rfl
@[simp] theorem memWrite_mem (a : Nat) (b : Byte) : (s.memWrite a b).mem = Memory.write s.mem (a % Config.memSize) b := rfl
@[simp] theorem memWrite_fb (a : Nat) (b : Byte) : (s.memWrite a b).fb = s.fb := rfl
@[simp] theorem memWrite_keys (a : Nat) (b : Byte) : (s.memWrite a b).keys = s.keys := rfl
@[simp] theorem memWrite_err (a : Nat) (b : Byte) : (s.memWrite a b).err = s.err := rfl
@[simp] theorem memWrite_schedule (a : Nat) (b : Byte) : (s.memWrite a b).schedule = s.schedule := rfl
@[simp] theorem memWrite_draws (a : Nat) (b : Byte) : (s.memWrite a b).draws = s.draws := rfl
@[simp] theorem memWrite_drawn (a : Nat) (b : Byte) : (s.memWrite a b).drawn = s.drawn := rfl

/-! ### Accessors after updates -/

@[simp] theorem setV_key (x : RegIx) (b : Byte) (k : KeyIx) : (s.setV x b).key k = s.key k := rfl
@[simp] theorem setV_memRead (x : RegIx) (b : Byte) (n : Nat) : (s.setV x b).memRead n = s.memRead n := rfl
@[simp] theorem setI_getV (w : Word) (j : RegIx) : (s.setI w).getV j = s.getV j := rfl
@[simp] theorem setI_key (w : Word) (k : KeyIx) : (s.setI w).key k = s.key k := rfl
@[simp] theorem setI_memRead (w : Word) (n : Nat) : (s.setI w).memRead n = s.memRead n := rfl
@[simp] theorem setDt_getV (b : Byte) (j : RegIx) : (s.setDt b).getV j = s.getV j := rfl
@[simp] theorem setDt_key (b : Byte) (k : KeyIx) : (s.setDt b).key k = s.key k := rfl
@[simp] theorem setDt_memRead (b : Byte) (n : Nat) : (s.setDt b).memRead n = s.memRead n := rfl
@[simp] theorem setSt_getV (b : Byte) (j : RegIx) : (s.setSt b).getV j = s.getV j := rfl
@[simp] theorem setSt_key (b : Byte) (k : KeyIx) : (s.setSt b).key k = s.key k := rfl
@[simp] theorem setSt_memRead (b : Byte) (n : Nat) : (s.setSt b).memRead n = s.memRead n := rfl
@[simp] theorem setPc_getV (w : Word) (j : RegIx) : (s.setPc w).getV j = s.getV j := rfl
@[simp] theorem setPc_key (w : Word) (k : KeyIx) : (s.setPc w).key k = s.key k := rfl
@[simp] theorem setPc_memRead (w : Word) (n : Nat) : (s.setPc w).memRead n = s.memRead n := rfl
@[simp] theorem push_getV (w : Word) (h : s.sp.val < 16) (j : RegIx) : (s.push w h).getV j = s.getV j := rfl
@[simp] theorem push_key (w : Word) (h : s.sp.val < 16) (k : KeyIx) : (s.push w h).key k = s.key k := rfl
@[simp] theorem push_memRead (w : Word) (h : s.sp.val < 16) (n : Nat) : (s.push w h).memRead n = s.memRead n := rfl
@[simp] theorem pop_getV (j : RegIx) : (s.pop).getV j = s.getV j := rfl
@[simp] theorem pop_key (k : KeyIx) : (s.pop).key k = s.key k := rfl
@[simp] theorem pop_memRead (n : Nat) : (s.pop).memRead n = s.memRead n := rfl
@[simp] theorem setFb_getV (fb : Framebuffer) (j : RegIx) : (s.setFb fb).getV j = s.getV j := rfl
@[simp] theorem setFb_key (fb : Framebuffer) (k : KeyIx) : (s.setFb fb).key k = s.key k := rfl
@[simp] theorem setFb_memRead (fb : Framebuffer) (n : Nat) : (s.setFb fb).memRead n = s.memRead n := rfl
@[simp] theorem keySet_getV (k₁ : KeyIx) (p : Bool) (j : RegIx) : (s.keySet k₁ p).getV j = s.getV j := rfl
@[simp] theorem keySet_memRead (k₁ : KeyIx) (p : Bool) (n : Nat) : (s.keySet k₁ p).memRead n = s.memRead n := rfl
@[simp] theorem drawTaken_getV (j : RegIx) : (s.drawTaken).getV j = s.getV j := rfl
@[simp] theorem drawTaken_key (k : KeyIx) : (s.drawTaken).key k = s.key k := rfl
@[simp] theorem drawTaken_memRead (n : Nat) : (s.drawTaken).memRead n = s.memRead n := rfl
@[simp] theorem raise_getV (c : ErrCode) (j : RegIx) : (s.raise c).getV j = s.getV j := rfl
@[simp] theorem raise_key (c : ErrCode) (k : KeyIx) : (s.raise c).key k = s.key k := rfl
@[simp] theorem raise_memRead (c : ErrCode) (n : Nat) : (s.raise c).memRead n = s.memRead n := rfl
@[simp] theorem clearErr_getV (j : RegIx) : (s.clearErr).getV j = s.getV j := rfl
@[simp] theorem clearErr_key (k : KeyIx) : (s.clearErr).key k = s.key k := rfl
@[simp] theorem clearErr_memRead (n : Nat) : (s.clearErr).memRead n = s.memRead n := rfl
@[simp] theorem tick_getV (j : RegIx) : (s.tick).getV j = s.getV j := rfl
@[simp] theorem tick_key (k : KeyIx) : (s.tick).key k = s.key k := rfl
@[simp] theorem tick_memRead (n : Nat) : (s.tick).memRead n = s.memRead n := rfl
@[simp] theorem skipError_getV (j : RegIx) : (s.skipError).getV j = s.getV j := rfl
@[simp] theorem skipError_key (k : KeyIx) : (s.skipError).key k = s.key k := rfl
@[simp] theorem skipError_memRead (n : Nat) : (s.skipError).memRead n = s.memRead n := rfl
@[simp] theorem memWrite_getV (a : Nat) (b : Byte) (j : RegIx) : (s.memWrite a b).getV j = s.getV j := rfl
@[simp] theorem memWrite_key (a : Nat) (b : Byte) (k : KeyIx) : (s.memWrite a b).key k = s.key k := rfl

/-! ### The fetched word after updates that touch neither PC nor memory -/

@[simp] theorem setV_fetchWord (x : RegIx) (b : Byte) : (s.setV x b).fetchWord = s.fetchWord := rfl
@[simp] theorem setI_fetchWord (w : Word) : (s.setI w).fetchWord = s.fetchWord := rfl
@[simp] theorem setDt_fetchWord (b : Byte) : (s.setDt b).fetchWord = s.fetchWord := rfl
@[simp] theorem setSt_fetchWord (b : Byte) : (s.setSt b).fetchWord = s.fetchWord := rfl
@[simp] theorem push_fetchWord (w : Word) (h : s.sp.val < 16) : (s.push w h).fetchWord = s.fetchWord := rfl
@[simp] theorem pop_fetchWord : (s.pop).fetchWord = s.fetchWord := rfl
@[simp] theorem setFb_fetchWord (fb : Framebuffer) : (s.setFb fb).fetchWord = s.fetchWord := rfl
@[simp] theorem keySet_fetchWord (k : KeyIx) (p : Bool) : (s.keySet k p).fetchWord = s.fetchWord := rfl
@[simp] theorem drawTaken_fetchWord : (s.drawTaken).fetchWord = s.fetchWord := rfl
@[simp] theorem raise_fetchWord (c : ErrCode) : (s.raise c).fetchWord = s.fetchWord := rfl
@[simp] theorem clearErr_fetchWord : (s.clearErr).fetchWord = s.fetchWord := rfl
@[simp] theorem tick_fetchWord : (s.tick).fetchWord = s.fetchWord := rfl

theorem getV_setV (x j : RegIx) (b : Byte) : (s.setV x b).getV j = if j = x then b else s.getV j := by
  simp only [getV, setV_v, Vector.getElem_set]
  by_cases h : j = x
  · simp [h]
  · have : x.toNat ≠ j.toNat := fun e => h (BitVec.eq_of_toNat_eq e.symm)
    simp [h, this]

@[simp] theorem getV_setV_self (x : RegIx) (b : Byte) : (s.setV x b).getV x = b := by simp [getV_setV]

theorem getV_setV_of_ne {x j : RegIx} (h : j ≠ x) (b : Byte) : (s.setV x b).getV j = s.getV j := by
  simp [getV_setV, h]

theorem key_keySet (k j : KeyIx) (p : Bool) : (s.keySet k p).key j = if j = k then p else s.key j := by
  simp only [key, keySet_keys, Vector.getElem_set]
  by_cases h : j = k
  · simp [h]
  · have : k.toNat ≠ j.toNat := fun e => h (BitVec.eq_of_toNat_eq e.symm)
    simp [h, this]

end Sys2Proof.Machine.State

namespace Sys2Proof.Machine

open Sys2Proof

theorem Framebuffer.pixel_setPixel (fb : Framebuffer) (x u : Fin 64) (y w : Fin 32) (b : Bool) :
    Framebuffer.pixel (Framebuffer.setPixel fb x y b) u w =
      if u = x ∧ w = y then b else Framebuffer.pixel fb u w := by
  simp only [Framebuffer.pixel, Framebuffer.setPixel, Vector.getElem_set, Fin.ext_iff]
  by_cases hy : w.val = y.val
  · by_cases hx : u.val = x.val
    · simp [hx, hy]
    · simp [hy, hx, Ne.symm hx]
  · simp [hy, Ne.symm hy]

@[simp] theorem Framebuffer.pixel_clear (x : Fin 64) (y : Fin 32) : Framebuffer.pixel Framebuffer.clear x y = false := by
  simp [Framebuffer.pixel, Framebuffer.clear]

end Sys2Proof.Machine
end

