-- ==== Sys2Proof/Laws/Memory.lean ====
section
/-! SUPPORT. Memory: a byte reads back what was written, a write leaves every other byte alone, and every operation keeps
the canonical form. -/

namespace Sys2Proof.Machine

open Sys2Proof

/-- An address below every key reads as the background. -/
theorem Memory.read_eq_background {m : Memory} {a : Nat} (h : ∀ p ∈ m, a < p.1) :
    Memory.read m a = background a := by
  induction m with
  | nil => rfl
  | cons p rest ih =>
    obtain ⟨k, c⟩ := p
    have hk : a < k := h (k, c) (by simp)
    rw [Memory.read, if_neg (Nat.ne_of_lt hk)]
    exact ih fun q hq => h q (by simp [hq])

/-- Every entry of a written memory is an old one or the byte written. -/
theorem Memory.mem_write {m : Memory} {a : Nat} {b : Byte} {p : Host.Cell} (h : p ∈ Memory.write m a b) :
    p ∈ m ∨ p = (a, b) ∧ b ≠ background a := by
  induction m with
  | nil =>
    simp only [Memory.write] at h
    split at h <;> simp_all
  | cons q rest ih =>
    obtain ⟨k, c⟩ := q
    simp only [Memory.write] at h
    split at h
    · split at h <;> simp_all
      tauto
    · split at h
      · split at h <;> simp_all
        tauto
      · rcases List.mem_cons.1 h with rfl | h
        · simp
        · rcases ih h with h | h
          · exact .inl (List.mem_cons_of_mem _ h)
          · exact .inr h

/-- A byte reads back what was written, every other byte what it read before. -/
theorem Memory.read_write {m : Memory} (h : m.Pairwise fun p q => p.1 < q.1) (a n : Nat) (b : Byte) :
    Memory.read (Memory.write m a b) n = if n = a then b else Memory.read m n := by
  induction m with
  | nil =>
    simp only [Memory.write]
    split <;> simp [Memory.read]
    rintro rfl
    simp_all
  | cons p rest ih =>
    obtain ⟨k, c⟩ := p
    rw [List.pairwise_cons] at h
    have below : ∀ {n}, n ≤ k → Memory.read rest n = background n := fun hn =>
      Memory.read_eq_background fun q hq => Nat.lt_of_le_of_lt hn (h.1 q hq)
    simp only [Memory.write]
    by_cases hak : a < k
    · rw [if_pos hak]
      by_cases hb : b = background a
      · rw [if_pos hb]
        by_cases hn : n = a
        · subst hn
          rw [if_pos rfl, Memory.read, if_neg (Nat.ne_of_lt hak), below (Nat.le_of_lt hak), hb]
        · rw [if_neg hn]
      · rw [if_neg hb]; rfl
    · rw [if_neg hak]
      by_cases hk : a = k
      · subst hk
        rw [if_pos rfl]
        by_cases hb : b = background a
        · rw [if_pos hb]
          by_cases hn : n = a
          · subst hn
            rw [if_pos rfl, below (Nat.le_refl _), hb]
          · rw [if_neg hn, Memory.read, if_neg hn]
        · rw [if_neg hb]
          simp only [Memory.read]
          split <;> rfl
      · rw [if_neg hk]
        simp only [Memory.read, ih h.2]
        by_cases hn : n = k
        · subst hn
          rw [if_pos rfl, if_pos rfl, if_neg (fun e => hk e.symm)]
        · rw [if_neg hn, if_neg hn]

/-- A write leaves every other byte alone, in any list of cells. -/
theorem Memory.read_write_of_ne (m : Memory) {a n : Nat} (h : n ≠ a) (b : Byte) :
    Memory.read (Memory.write m a b) n = Memory.read m n := by
  induction m with
  | nil =>
    simp only [Memory.write]
    split <;> simp [Memory.read, h]
  | cons p rest ih =>
    simp only [Memory.write]
    split
    · split <;> simp [Memory.read, h]
    · split
      · rename_i hk
        split <;> simp [Memory.read, h, ← hk]
      · simp only [Memory.read, ih]

/-- A write keeps the canonical form. -/
theorem Memory.write_wf {m : Memory} (h : Memory.wf m) {a : Nat} (ha : a < Config.memSize) (b : Byte) :
    Memory.wf (Memory.write m a b) := by
  refine ⟨?_, fun p hp => ?_⟩
  · have hs := h.1
    clear h
    induction m with
    | nil =>
      simp only [Memory.write]
      split <;> simp
    | cons p rest ih =>
      obtain ⟨k, c⟩ := p
      have hc := List.pairwise_cons.1 hs
      simp only [Memory.write]
      split
      · rename_i hak
        split
        · exact hs
        · refine List.pairwise_cons.2 ⟨fun q hq => ?_, hs⟩
          rcases List.mem_cons.1 hq with rfl | hq
          · exact hak
          · exact Nat.lt_trans hak (hc.1 q hq)
      · split
        · rename_i _ hk
          split
          · exact hc.2
          · exact List.pairwise_cons.2 ⟨fun q hq => hk ▸ hc.1 q hq, hc.2⟩
        · refine List.pairwise_cons.2 ⟨fun q hq => ?_, ih hc.2⟩
          rcases Memory.mem_write hq with hq | ⟨rfl, -⟩
          · exact hc.1 q hq
          · simp only; omega
  · rcases Memory.mem_write hp with hp | ⟨rfl, hb⟩
    · exact h.2 p hp
    · exact ⟨ha, hb⟩

/-- Behind its first entry, a canonical memory lists nothing at or below that entry's address. -/
theorem Memory.read_tail_eq_background {m : Memory} {k : Nat} {c : Byte} (h : Memory.wf ((k, c) :: m)) {a : Nat}
    (ha : a ≤ k) : Memory.read m a = background a :=
  Memory.read_eq_background fun q hq => Nat.lt_of_le_of_lt ha ((List.pairwise_cons.1 h.1).1 q hq)

/-- Two canonical memories that read alike everywhere are equal. -/
theorem Memory.eq_of_read_eq {m n : Memory} (hm : Memory.wf m) (hn : Memory.wf n)
    (h : ∀ a, Memory.read m a = Memory.read n a) : m = n := by
  induction m generalizing n with
  | nil =>
    cases n with
    | nil => rfl
    | cons q rest =>
      have := h q.1
      simp only [Memory.read, if_pos] at this
      exact absurd this.symm (hn.2 q (by simp)).2
  | cons p rest ih =>
    obtain ⟨k, c⟩ := p
    have hpm := List.pairwise_cons.1 hm.1
    cases n with
    | nil =>
      have := h k
      simp only [Memory.read, if_pos] at this
      exact absurd this (hm.2 (k, c) (by simp)).2
    | cons q rest' =>
      obtain ⟨l, d⟩ := q
      have hk : k = l := by
        rcases Nat.lt_trichotomy k l with hl | hl | hl
        · have := h k
          simp only [Memory.read, if_pos, if_neg (Nat.ne_of_lt hl), Memory.read_tail_eq_background hn (Nat.le_of_lt hl)] at this
          exact absurd this (hm.2 (k, c) (by simp)).2
        · exact hl
        · have := h l
          simp only [Memory.read, if_pos, if_neg (Nat.ne_of_lt hl), Memory.read_tail_eq_background hm (Nat.le_of_lt hl)] at this
          exact absurd this.symm (hn.2 (l, d) (by simp)).2
      subst hk
      have hcd : c = d := by simpa [Memory.read] using h k
      subst hcd
      congr 1
      refine ih ⟨hpm.2, fun p hp => hm.2 p (by simp [hp])⟩
        ⟨(List.pairwise_cons.1 hn.1).2, fun p hp => hn.2 p (by simp [hp])⟩ fun a => ?_
      by_cases ha : a = k
      · subst ha
        rw [Memory.read_tail_eq_background hm (Nat.le_refl _), Memory.read_tail_eq_background hn (Nat.le_refl _)]
      · simpa [Memory.read, ha] using h a

namespace State

/-- The byte at `n` after a byte is written at `a`, both reduced mod 4096. -/
theorem memRead_memWrite {s : State} (h : Memory.wf s.mem) (a n : Nat) (b : Byte) :
    (s.memWrite a b).memRead n = if n % Config.memSize = a % Config.memSize then b else s.memRead n := by
  simp only [memRead, memWrite_mem, Memory.read_write h.1]

/-- A byte at another address is as before, whatever form memory has. -/
theorem memRead_memWrite_of_ne (s : State) {a n : Nat} (h : n % Config.memSize ≠ a % Config.memSize) (b : Byte) :
    (s.memWrite a b).memRead n = s.memRead n := by
  simp only [memRead, memWrite_mem, Memory.read_write_of_ne _ h]

/-- A write of one byte keeps the canonical form. -/
theorem memWrite_wf {s : State} (h : Memory.wf s.mem) (a : Nat) (b : Byte) : Memory.wf (s.memWrite a b).mem :=
  Memory.write_wf h (Nat.mod_lt _ (by decide)) b

/-- Addresses 4096 apart are one byte. -/
@[simp] theorem memRead_mod (s : State) (n : Nat) : s.memRead (n % Config.memSize) = s.memRead n := by
  simp [memRead]

end State

end Sys2Proof.Machine
end

