-- ==== Sys2Proof/Laws/Ops.lean ====
section
/-! SUPPORT. What each shared operation can do, said once: the block transfers of registers, the key scan, and what the
environment does between two steps. -/

namespace Sys2Proof.Machine.State

open Sys2Proof

/-! ## Registers by number -/

theorem ofNat_inj_of_lt {j k : Nat} (hj : j < 16) (hk : k < 16) (h : BitVec.ofNat 4 j = BitVec.ofNat 4 k) : j = k := by
  have := congrArg BitVec.toNat h
  simp only [BitVec.toNat_ofNat] at this
  omega

/-- Sixteen offsets from I name sixteen different bytes. -/
theorem addrI_mod_inj (s : State) {j k : Nat} (hj : j < 16) (hk : k < 16)
    (h : s.addrI j % Config.memSize = s.addrI k % Config.memSize) : j = k := by
  simp only [addrI, Config.memSize] at h
  omega

/-! ## storeRegs (45_index_memory.md R164) -/

/-- A block store changes memory alone. -/
theorem storeRegs_eq (s : State) (n : Nat) : s.storeRegs n = { s with mem := (s.storeRegs n).mem } := by
  induction n with
  | zero => rfl
  | succ n ih =>
    rw [storeRegs, ih]
    rfl

theorem storeRegs_wf {s : State} (h : Memory.wf s.mem) (n : Nat) : Memory.wf (s.storeRegs n).mem := by
  induction n with
  | zero => exact h
  | succ n ih => exact memWrite_wf ih _ _

/-- Outside the bytes stored to, memory is as before. -/
theorem memRead_storeRegs_of_ne (s : State) {n a : Nat}
    (ha : ∀ k < n, a % Config.memSize ≠ s.addrI k % Config.memSize) : (s.storeRegs n).memRead a = s.memRead a := by
  induction n with
  | zero => rfl
  | succ n ih =>
    rw [storeRegs, memRead_memWrite_of_ne _ (ha n (Nat.lt_succ_self n))]
    exact ih fun k hk => ha k (Nat.lt_succ_of_lt hk)

/-- The byte at offset k holds V[k]. -/
theorem memRead_storeRegs {s : State} (h : Memory.wf s.mem) {n k : Nat} (hn : n ≤ 16) (hk : k < n) :
    (s.storeRegs n).memRead (s.addrI k) = s.getV (BitVec.ofNat 4 k) := by
  induction n with
  | zero => omega
  | succ n ih =>
    rw [storeRegs, memRead_memWrite (storeRegs_wf h n)]
    by_cases hkn : k = n
    · rw [hkn, if_pos rfl]
    · rw [if_neg fun e => hkn (addrI_mod_inj s (by omega) (by omega) e)]
      exact ih (by omega) (by omega)

/-! ## loadRegs (45_index_memory.md R165) -/

/-- A block load changes the general registers alone. -/
theorem loadRegs_eq (s : State) (n : Nat) : s.loadRegs n = { s with v := (s.loadRegs n).v } := by
  induction n with
  | zero => rfl
  | succ n ih =>
    rw [loadRegs, ih]
    rfl

/-- V[k] holds the byte at offset k for k < n, and the other registers are as before. -/
theorem getV_loadRegs (s : State) {n : Nat} (hn : n ≤ 16) (j : RegIx) :
    (s.loadRegs n).getV j = if j.toNat < n then s.memRead (s.addrI j.toNat) else s.getV j := by
  induction n with
  | zero => simp [loadRegs]
  | succ n ih =>
    rw [loadRegs, getV_setV, ih (by omega)]
    by_cases hj : j = BitVec.ofNat 4 n
    · subst hj
      simp [Nat.mod_eq_of_lt (show n < 16 by omega)]
    · have : j.toNat ≠ n := fun e => hj (by rw [← e]; simp)
      simp only [if_neg hj]
      have : (j.toNat < n + 1) = (j.toNat < n) := by simp only [eq_iff_iff]; omega
      simp only [this]

/-! ## firstKey (44_input_timer.md R153) -/

theorem firstKey_eq_none (s : State) : s.firstKey = none ↔ ∀ k : KeyIx, s.key k = false := by
  simp only [firstKey, List.find?_eq_none, List.mem_range]
  constructor
  · intro h k
    simpa using h k.toNat k.isLt
  · intro h k _
    simp [h]

theorem firstKey_eq_some (s : State) (n : Nat) :
    s.firstKey = some n ↔ n < 16 ∧ s.key (BitVec.ofNat 4 n) = true ∧ ∀ m < n, s.key (BitVec.ofNat 4 m) = false := by
  simp only [firstKey, List.find?_range_eq_some, List.mem_range]
  constructor
  · rintro ⟨h1, h2, h3⟩
    exact ⟨h2, h1, fun m hm => by simpa using h3 m hm⟩
  · rintro ⟨h1, h2, h3⟩
    exact ⟨h2, h1, fun m hm => by simp [h3 m hm]⟩

/-! ## settle (10_state.md R38) -/

/-- What the environment can write between two steps: the timers, the latch, PC (through `skip_error`) and the model's
own schedule. -/
theorem settle_eq (s : State) :
    s.settle = { s with dt := s.settle.dt, st := s.settle.st, keys := s.settle.keys, pc := s.settle.pc,
                        schedule := s.schedule.tail } := by
  have fold : ∀ (es : List EnvEvent) (u : State), es.foldl applyEvent u =
      { u with dt := (es.foldl applyEvent u).dt, st := (es.foldl applyEvent u).st,
               keys := (es.foldl applyEvent u).keys, pc := (es.foldl applyEvent u).pc } := by
    intro es
    induction es with
    | nil => intro u; rfl
    | cons e es ih =>
      intro u
      rw [List.foldl_cons, ih]
      cases e <;> rfl
  unfold settle
  split
  · rename_i h
    rw [h, List.tail_nil, ← h]
  · rename_i es rest h
    rw [fold]
    simp [h]

@[simp] theorem settle_mem (s : State) : s.settle.mem = s.mem := by rw [settle_eq]
@[simp] theorem settle_v (s : State) : s.settle.v = s.v := by rw [settle_eq]
@[simp] theorem settle_schedule (s : State) : s.settle.schedule = s.schedule.tail := by rw [settle_eq]
@[simp] theorem settle_getV (s : State) (x : RegIx) : s.settle.getV x = s.getV x := by simp [getV]
@[simp] theorem settle_memRead (s : State) (a : Nat) : s.settle.memRead a = s.memRead a := by simp [memRead]

/-! ## Placing a word for the fetch -/

/-- A word placed at PC is the word that is fetched. -/
theorem fetchWord_placeWord {s : State} (h : Memory.wf s.mem) (w : Word) : (s.placeWord s.pc w).fetchWord = w := by
  have ne : (s.pc.toNat % Config.memSize) ≠ ((s.pc + 1#16).toNat % Config.memSize) := by
    simp only [Config.memSize, BitVec.toNat_add, BitVec.toNat_ofNat]
    omega
  simp only [fetchWord, placeWord, memWrite_pc, memRead_memWrite (memWrite_wf h _ _), memRead_memWrite h, if_neg ne, if_true]
  exact wordOfBytes_high_low w

end Sys2Proof.Machine.State
end

