-- ==== Sys2Proof/Laws/Draw.lean ====
section
/-! SUPPORT. The sprite compositor in closed form: the drawing loop inverts the listed pixels once each, and finds a
collision exactly when one of them was set (43_display.md R142, R143). -/

namespace Sys2Proof.Machine

open Sys2Proof

/-- Plotting a list of different pixels inverts exactly those, and reports whether one of them was set. -/
theorem plotAll_spec (ps : List (Fin 64 × Fin 32)) (hps : ps.Nodup) (c : Canvas) :
    (∀ x y, (ps.foldl (fun c p => c.plot p.1 p.2) c).fb.pixel x y
      = (c.fb.pixel x y ^^ decide ((x, y) ∈ ps))) ∧
    (ps.foldl (fun c p => c.plot p.1 p.2) c).hit = (c.hit || ps.any fun p => c.fb.pixel p.1 p.2) := by
  induction ps generalizing c with
  | nil => simp
  | cons p ps ih =>
    obtain ⟨hp, hnd⟩ := List.nodup_cons.1 hps
    obtain ⟨ihp, ihh⟩ := ih hnd (c.plot p.1 p.2)
    have other : ∀ q ∈ ps, (c.plot p.1 p.2).fb.pixel q.1 q.2 = c.fb.pixel q.1 q.2 := by
      intro q hq
      simp only [Canvas.plot, Framebuffer.pixel_setPixel]
      rw [if_neg]
      rintro ⟨h1, h2⟩
      exact hp (Prod.ext h1 h2 ▸ hq)
    refine ⟨fun x y => ?_, ?_⟩
    · rw [List.foldl_cons, ihp]
      simp only [Canvas.plot, Framebuffer.pixel_setPixel, List.mem_cons]
      by_cases hxy : (x, y) = p
      · subst hxy
        simp [hp]
      · have : ¬ (x = p.1 ∧ y = p.2) := fun ⟨h1, h2⟩ => hxy (Prod.ext h1 h2)
        simp [this, hxy]
    · rw [List.foldl_cons, ihh]
      have : (ps.any fun q => (c.plot p.1 p.2).fb.pixel q.1 q.2) = ps.any fun q => c.fb.pixel q.1 q.2 := by
        rw [Bool.eq_iff_iff, List.any_eq_true, List.any_eq_true]
        exact ⟨fun ⟨q, hq, h⟩ => ⟨q, hq, other q hq ▸ h⟩, fun ⟨q, hq, h⟩ => ⟨q, hq, (other q hq).symm ▸ h⟩⟩
      rw [this]
      simp [Canvas.plot, Bool.or_assoc]

/-- The pixels of one sprite byte. -/
def rowPixels (x0 y : Nat) (b : Byte) : List (Fin 64 × Fin 32) :=
  ((List.range 8).filter fun col => b.getLsbD (7 - col)).map fun col => (Fin.ofNat 64 (x0 + col), Fin.ofNat 32 y)

/-- The pixels of a sprite, in drawing order. -/
def spritePixels (sprite : Nat → Byte) (x0 y0 n : Nat) : List (Fin 64 × Fin 32) :=
  (List.range n).flatMap fun r => rowPixels x0 (y0 + r) (sprite r)

theorem drawRow_eq (x0 y : Nat) (b : Byte) (c : Canvas) :
    c.drawRow x0 y b = (rowPixels x0 y b).foldl (fun c p => c.plot p.1 p.2) c := by
  simp only [Canvas.drawRow, rowPixels, List.foldl_map, List.foldl_filter]
  rfl

theorem drawRows_eq (sprite : Nat → Byte) (x0 y0 n : Nat) (c : Canvas) :
    Canvas.drawRows sprite x0 y0 n c = (spritePixels sprite x0 y0 n).foldl (fun c p => c.plot p.1 p.2) c := by
  simp only [Canvas.drawRows, spritePixels, List.foldl_flatMap, drawRow_eq]

theorem mem_spritePixels (sprite : Nat → Byte) (x0 y0 n : Nat) (x : Fin 64) (y : Fin 32) :
    (x, y) ∈ spritePixels sprite x0 y0 n ↔ Covers sprite x0 y0 n x y := by
  simp only [spritePixels, rowPixels, Covers, List.mem_flatMap, List.mem_map, List.mem_filter, List.mem_range,
    Prod.mk.injEq, Fin.ext_iff, Fin.val_ofNat]
  constructor
  · rintro ⟨r, hr, col, ⟨hc, hb⟩, hx, hy⟩
    exact ⟨r, hr, col, hc, hb, hx.symm, hy.symm⟩
  · rintro ⟨r, hr, col, hc, hb, hx, hy⟩
    exact ⟨r, hr, col, ⟨hc, hb⟩, hx.symm, hy.symm⟩

/-- A sprite at most 32 rows high touches each pixel at most once, even with wrapping (R143). -/
theorem spritePixels_nodup (sprite : Nat → Byte) (x0 y0 : Nat) {n : Nat} (hn : n ≤ 32) :
    (spritePixels sprite x0 y0 n).Nodup := by
  refine List.nodup_flatMap.2 ⟨fun r _ => ?_, ?_⟩
  · refine (List.nodup_range.filter _).map_on fun a ha b hb h => ?_
    simp only [List.mem_filter, List.mem_range] at ha hb
    simp only [Prod.mk.injEq, Fin.ext_iff, Fin.val_ofNat] at h
    omega
  · refine List.Pairwise.imp_of_mem (fun {r q} hr hq (hlt : r < q) => ?_) List.pairwise_lt_range
    simp only [List.mem_range] at hr hq
    simp only [Function.onFun, List.disjoint_left, rowPixels, List.mem_map, not_exists, not_and]
    rintro _ ⟨a, _, rfl⟩ b _ h
    simp only [Prod.mk.injEq, Fin.ext_iff, Fin.val_ofNat] at h
    omega

/-- The drawing loop in closed form. -/
theorem drawRows_spec (sprite : Nat → Byte) (x0 y0 : Nat) {n : Nat} (hn : n ≤ 32) (c : Canvas) :
    (∀ x y, ((Canvas.drawRows sprite x0 y0 n c).fb.pixel x y = !c.fb.pixel x y ↔ Covers sprite x0 y0 n x y)) ∧
    ((Canvas.drawRows sprite x0 y0 n c).hit = true ↔
      c.hit = true ∨ ∃ x y, Covers sprite x0 y0 n x y ∧ c.fb.pixel x y = true) := by
  obtain ⟨hp, hh⟩ := plotAll_spec _ (spritePixels_nodup sprite x0 y0 hn) c
  rw [drawRows_eq]
  refine ⟨fun x y => ?_, ?_⟩
  · rw [hp, ← mem_spritePixels]
    by_cases h : (x, y) ∈ spritePixels sprite x0 y0 n <;> simp [h]
  · rw [hh, Bool.or_eq_true, List.any_eq_true]
    simp only [Prod.exists, mem_spritePixels]

end Sys2Proof.Machine
end

