-- ==== Sys2Proof/Laws/PerInstr.lean ====
section
/-! SUPPORT. Per instruction: the word that `encode` builds has the fixed bits of the instruction's row in the opcode
table (30_encoding.md R82). -/

namespace Sys2Proof

/-- The family: the encoded word selects the instruction's own row. -/
def Laws.RowBits.Statement (i : Instr) : Prop := i.row.selects (encode i) = true

/-- A mask over the class nibble alone keeps the class. -/
theorem and_classMask (w : Word) : w &&& 0xF000#16 = wordNNN (fieldC w) 0 := by
  conv_lhs => rw [← wordNNN_fields w]
  apply BitVec.eq_of_getLsbD_eq
  intro i hi
  simp only [wordNNN, BitVec.getLsbD_and, BitVec.getLsbD_append]
  interval_cases i <;> simp

/-- A mask over the class and the low nibble keeps those two. -/
theorem and_classNibbleMask (w : Word) : w &&& 0xF00F#16 = wordXYN (fieldC w) 0 0 (fieldN w) := by
  conv_lhs => rw [← wordXYN_fields w]
  apply BitVec.eq_of_getLsbD_eq
  intro i hi
  simp only [wordXYN, BitVec.getLsbD_and, BitVec.getLsbD_append]
  interval_cases i <;> simp

/-- A mask over the class and the low byte keeps those two. -/
theorem and_classByteMask (w : Word) : w &&& 0xF0FF#16 = wordXKK (fieldC w) 0 (fieldKK w) := by
  conv_lhs => rw [← wordXKK_fields w]
  apply BitVec.eq_of_getLsbD_eq
  intro i hi
  simp only [wordXKK, BitVec.getLsbD_and, BitVec.getLsbD_append]
  interval_cases i <;> simp

namespace Laws.RowBits

theorem sys (nnn : Addr12) : Statement (.sys nnn) := by
  simp [Statement, OpcodeRow.selects, Instr.row, encode, and_classMask]
  decide

theorem cls : Statement .cls := by
  simp only [Statement]
  decide

theorem ret : Statement .ret := by
  simp only [Statement]
  decide

theorem jp (nnn : Addr12) : Statement (.jp nnn) := by
  simp [Statement, OpcodeRow.selects, Instr.row, encode, and_classMask]
  decide

theorem call (nnn : Addr12) : Statement (.call nnn) := by
  simp [Statement, OpcodeRow.selects, Instr.row, encode, and_classMask]
  decide

theorem se (x : RegIx) (kk : Byte) : Statement (.se x kk) := by
  simp [Statement, OpcodeRow.selects, Instr.row, encode, and_classMask]
  decide

theorem sne (x : RegIx) (kk : Byte) : Statement (.sne x kk) := by
  simp [Statement, OpcodeRow.selects, Instr.row, encode, and_classMask]
  decide

theorem seReg (x : RegIx) (y : RegIx) : Statement (.seReg x y) := by
  simp [Statement, OpcodeRow.selects, Instr.row, encode, and_classMask]
  decide

theorem ld (x : RegIx) (kk : Byte) : Statement (.ld x kk) := by
  simp [Statement, OpcodeRow.selects, Instr.row, encode, and_classMask]
  decide

theorem add (x : RegIx) (kk : Byte) : Statement (.add x kk) := by
  simp [Statement, OpcodeRow.selects, Instr.row, encode, and_classMask]
  decide

theorem ldReg (x : RegIx) (y : RegIx) : Statement (.ldReg x y) := by
  simp [Statement, OpcodeRow.selects, Instr.row, encode, and_classNibbleMask]
  decide

theorem orReg (x : RegIx) (y : RegIx) : Statement (.orReg x y) := by
  simp [Statement, OpcodeRow.selects, Instr.row, encode, and_classNibbleMask]
  decide

theorem andReg (x : RegIx) (y : RegIx) : Statement (.andReg x y) := by
  simp [Statement, OpcodeRow.selects, Instr.row, encode, and_classNibbleMask]
  decide

theorem xorReg (x : RegIx) (y : RegIx) : Statement (.xorReg x y) := by
  simp [Statement, OpcodeRow.selects, Instr.row, encode, and_classNibbleMask]
  decide

theorem addReg (x : RegIx) (y : RegIx) : Statement (.addReg x y) := by
  simp [Statement, OpcodeRow.selects, Instr.row, encode, and_classNibbleMask]
  decide

theorem sub (x : RegIx) (y : RegIx) : Statement (.sub x y) := by
  simp [Statement, OpcodeRow.selects, Instr.row, encode, and_classNibbleMask]
  decide

theorem shr (x : RegIx) (y : RegIx) : Statement (.shr x y) := by
  simp [Statement, OpcodeRow.selects, Instr.row, encode, and_classNibbleMask]
  decide

theorem subn (x : RegIx) (y : RegIx) : Statement (.subn x y) := by
  simp [Statement, OpcodeRow.selects, Instr.row, encode, and_classNibbleMask]
  decide

theorem shl (x : RegIx) (y : RegIx) : Statement (.shl x y) := by
  simp [Statement, OpcodeRow.selects, Instr.row, encode, and_classNibbleMask]
  decide

theorem sneReg (x : RegIx) (y : RegIx) : Statement (.sneReg x y) := by
  simp [Statement, OpcodeRow.selects, Instr.row, encode, and_classMask]
  decide

theorem ldI (nnn : Addr12) : Statement (.ldI nnn) := by
  simp [Statement, OpcodeRow.selects, Instr.row, encode, and_classMask]
  decide

theorem jpV0 (nnn : Addr12) : Statement (.jpV0 nnn) := by
  simp [Statement, OpcodeRow.selects, Instr.row, encode, and_classMask]
  decide

theorem rnd (x : RegIx) (kk : Byte) : Statement (.rnd x kk) := by
  simp [Statement, OpcodeRow.selects, Instr.row, encode, and_classMask]
  decide

theorem drw (x : RegIx) (y : RegIx) (n : Nibble) : Statement (.drw x y n) := by
  simp [Statement, OpcodeRow.selects, Instr.row, encode, and_classMask]
  decide

theorem skp (x : RegIx) : Statement (.skp x) := by
  simp [Statement, OpcodeRow.selects, Instr.row, encode, and_classByteMask]
  decide

theorem sknp (x : RegIx) : Statement (.sknp x) := by
  simp [Statement, OpcodeRow.selects, Instr.row, encode, and_classByteMask]
  decide

theorem ldVxDt (x : RegIx) : Statement (.ldVxDt x) := by
  simp [Statement, OpcodeRow.selects, Instr.row, encode, and_classByteMask]
  decide

theorem ldVxK (x : RegIx) : Statement (.ldVxK x) := by
  simp [Statement, OpcodeRow.selects, Instr.row, encode, and_classByteMask]
  decide

theorem ldDtVx (x : RegIx) : Statement (.ldDtVx x) := by
  simp [Statement, OpcodeRow.selects, Instr.row, encode, and_classByteMask]
  decide

theorem ldStVx (x : RegIx) : Statement (.ldStVx x) := by
  simp [Statement, OpcodeRow.selects, Instr.row, encode, and_classByteMask]
  decide

theorem addIVx (x : RegIx) : Statement (.addIVx x) := by
  simp [Statement, OpcodeRow.selects, Instr.row, encode, and_classByteMask]
  decide

theorem ldFVx (x : RegIx) : Statement (.ldFVx x) := by
  simp [Statement, OpcodeRow.selects, Instr.row, encode, and_classByteMask]
  decide

theorem ldBVx (x : RegIx) : Statement (.ldBVx x) := by
  simp [Statement, OpcodeRow.selects, Instr.row, encode, and_classByteMask]
  decide

theorem ldMemVx (x : RegIx) : Statement (.ldMemVx x) := by
  simp [Statement, OpcodeRow.selects, Instr.row, encode, and_classByteMask]
  decide

theorem ldVxMem (x : RegIx) : Statement (.ldVxMem x) := by
  simp [Statement, OpcodeRow.selects, Instr.row, encode, and_classByteMask]
  decide

end Laws.RowBits

end Sys2Proof
end

