-- ==== Sys2Proof/Laws/Transactions.lean ====
section
/-! SUPPORT. Reset memory and the loader: what each byte is afterwards, and that both keep the canonical form; ticks. -/

namespace Sys2Proof.Machine

open Sys2Proof

theorem ResetParams.memoryBelow_eq (p : ResetParams) (n : Nat) :
    p.memoryBelow n = (List.range n).filterMap p.cell := by
  rw [memoryBelow]

/-- Listing the bytes that differ from the background, every listed address reads as its byte. -/
theorem ResetParams.read_filterMap_cell (p : ResetParams) (l : List Nat) (a : Nat) :
    Memory.read (l.filterMap p.cell) a = if a ∈ l then p.byte a else background a := by
  induction l with
  | nil => rfl
  | cons k l ih =>
    by_cases hk : p.byte k = background k
    · have : p.cell k = none := by rw [cell, if_pos hk]
      rw [List.filterMap_cons_none this, ih]
      by_cases h : a = k
      · subst h
        simp [hk]
      · simp [h]
    · have : p.cell k = some (k, p.byte k) := by rw [cell, if_neg hk]
      rw [List.filterMap_cons_some this, Memory.read, ih]
      by_cases h : a = k
      · simp [h]
      · simp [h]

/-- Reset memory is canonical. -/
theorem ResetParams.memoryBelow_wf (p : ResetParams) {n : Nat} (hn : n ≤ Config.memSize) :
    Memory.wf (p.memoryBelow n) := by
  have cell_some : ∀ {a : Nat} {c : Host.Cell}, p.cell a = some c → c.1 = a ∧ c.2 ≠ background a := by
    intro a c h
    rw [cell] at h
    split at h
    · cases h
    · cases h
      exact ⟨rfl, by assumption⟩
  rw [memoryBelow_eq]
  refine ⟨List.Pairwise.filterMap p.cell (fun a b hab c hc d hd => ?_) List.pairwise_lt_range, fun c hc => ?_⟩
  · rw [(cell_some hc).1, (cell_some hd).1]
    exact hab
  · obtain ⟨a, ha, hc⟩ := List.mem_filterMap.1 hc
    obtain ⟨h1, h2⟩ := cell_some hc
    exact ⟨h1 ▸ Nat.lt_of_lt_of_le (List.mem_range.1 ha) hn, h1 ▸ h2⟩

/-- Every byte of reset memory is the parameter's. -/
theorem ResetParams.read_memoryBelow (p : ResetParams) {a n : Nat} (ha : a < n) :
    Memory.read (p.memoryBelow n) a = p.byte a := by
  rw [memoryBelow_eq, read_filterMap_cell, if_pos (List.mem_range.2 ha)]

/-- Every byte after reset is the parameter's. -/
theorem State.memRead_resetWith (p : ResetParams) {a : Nat} (ha : a < Config.memSize) :
    (State.resetWith p).memRead a = p.byte a := by
  rw [State.memRead, Nat.mod_eq_of_lt ha]
  exact p.read_memoryBelow ha

/-- Loading changes memory alone. -/
theorem State.loadFrom_eq (s : State) (a : Nat) (image : List Byte) :
    s.loadFrom a image = { s with mem := (s.loadFrom a image).mem } := by
  induction image generalizing s a with
  | nil => rfl
  | cons b rest ih =>
    rw [State.loadFrom, ih]
    rfl

theorem State.loadFrom_wf {s : State} (h : Memory.wf s.mem) (a : Nat) (image : List Byte) :
    Memory.wf (s.loadFrom a image).mem := by
  induction image generalizing s a with
  | nil => exact h
  | cons b rest ih => exact ih (State.memWrite_wf h a b) (a + 1)

/-- Outside the image, memory is as before. -/
theorem State.memRead_loadFrom_of_ne {s : State} (h : Memory.wf s.mem) {a n : Nat} {image : List Byte}
    (hn : ∀ k < image.length, n % Config.memSize ≠ (a + k) % Config.memSize) :
    (s.loadFrom a image).memRead n = s.memRead n := by
  induction image generalizing s a with
  | nil => rfl
  | cons b rest ih =>
    rw [State.loadFrom, State.load, ih (State.memWrite_wf h a b) fun k hk => ?_]
    · rw [State.memRead_memWrite h, if_neg (by simpa using hn 0 (by simp))]
    · have := hn (k + 1) (by simpa using hk)
      rwa [show a + (k + 1) = a + 1 + k by omega] at this

/-- An image that fits in memory is read back byte by byte. -/
theorem State.memRead_loadFrom {s : State} (h : Memory.wf s.mem) {a k : Nat} {image : List Byte}
    (hfit : image.length ≤ Config.memSize) (hk : k < image.length) :
    (s.loadFrom a image).memRead (a + k) = image[k] := by
  induction image generalizing s a k with
  | nil => simp at hk
  | cons b rest ih =>
    simp only [List.length_cons] at hfit hk
    rw [State.loadFrom, State.load]
    cases k with
    | zero =>
      rw [State.memRead_loadFrom_of_ne (State.memWrite_wf h a b) fun j hj => ?_]
      · simp [State.memRead_memWrite h]
      · simp only [Config.memSize] at *
        omega
    | succ k =>
      rw [show a + (k + 1) = a + 1 + k by omega]
      simpa using ih (State.memWrite_wf h a b) (by omega) (by omega)

/-- A counter after a tick is one lower, and stays at 0 (60_exceptions.md R180). -/
theorem State.toNat_countDown (b : Byte) : (State.countDown b).toNat = b.toNat - 1 := by
  have := b.isLt
  unfold State.countDown
  split
  · rw [BitVec.toNat_sub]
    simp only [BitVec.toNat_ofNat]
    omega
  · omega

end Sys2Proof.Machine
end

