-- ==== Sys2Proof/Tests/Slice0.lean ====
section
/-! SUPPORT. Small tests, their expected results from 95_test_vectors.md and the encodings of 30_encoding.md, never from
this model; and for every obligation with hypotheses a witness that meets them. -/

open Sys2Proof Sys2Proof.Machine Sys2Proof.Machine.State

namespace Sys2Proof.Tests

/-! ## Helpers -/

/-- The reset state with some general registers written. -/
def start (vs : List (RegIx × Byte)) : State := vs.foldl (fun s p => s.setV p.1 p.2) .reset

/-- With I, and with bytes of memory. -/
def withI (s : State) (i : Word) (bytes : List (Nat × Byte)) : State :=
  bytes.foldl (fun s p => s.memWrite p.1 p.2) (s.setI i)

/-- With some pixels at 1. -/
def withPixels (s : State) (ps : List (Fin 64 × Fin 32)) : State :=
  s.setFb (ps.foldl (fun fb p => fb.setPixel p.1 p.2 true) s.fb)

/-- With some keys pressed. -/
def withKeys (s : State) (ks : List KeyIx) : State := ks.foldl (fun s k => s.keySet k true) s

/-- With a call stack of `n` entries, all of them `w`. -/
def withStack (s : State) (n : Fin 17) (w : Word) : State := { s with sp := n, stack := Vector.replicate 16 w }

/-- The word placed at PC, one step, and a check of the next state. -/
def runs (s : State) (w : Nat) (check : State → Bool) : Bool :=
  match step (s.withFetchWord 16 w) with
  | .next t => check t
  | .fault _ => false
  | .refused _ => false

/-- Which pixels of a square at the origin are 1. -/
def lit (fb : Framebuffer) (cols rows : List Nat) : List (Nat × Nat) :=
  (rows.flatMap fun y => cols.map fun x => (x, y)).filter fun p => fb.pixel (Fin.ofNat 64 p.1) (Fin.ofNat 32 p.2)

/-! ## Well-formedness -/

theorem test_wellFormed_refuses_sys_as_cls : (Instr.sys 0x0E0).wellFormed = false := by decide
theorem test_wellFormed_refuses_sys_as_ret : (Instr.sys 0x0EE).wellFormed = false := by decide
theorem test_wellFormed_takes_other_sys : (Instr.sys 0x1E0).wellFormed = true := by decide

/-! ## Decoding: words written out from 30_encoding.md R82 and R83 -/

theorem test_decode_class0 :
    decodeWord 0b0000_0000_1110_0000 = .ok .cls ∧ decodeWord 0b0000_0000_1110_1110 = .ok .ret ∧
    decodeWord 0b0000_0000_1110_0001 = .ok (.sys 0x0E1) ∧ decodeWord 0x0000 = .ok (.sys 0x000) := by decide

theorem test_decode_jumps :
    decodeWord 0b0001_0010_0000_1000 = .ok (.jp 0x208) ∧ decodeWord 0b0010_0011_0000_0000 = .ok (.call 0x300) ∧
    decodeWord 0b1011_1111_1111_1110 = .ok (.jpV0 0xFFE) := by decide

theorem test_decode_skips :
    decodeWord 0b0011_0011_0100_0010 = .ok (.se 0x3 0x42) ∧ decodeWord 0b0100_0011_0100_0001 = .ok (.sne 0x3 0x41) ∧
    decodeWord 0b0101_0001_0010_0001 = .ok (.seReg 0x1 0x2) ∧
    decodeWord 0b1001_1010_1011_0111 = .ok (.sneReg 0xA 0xB) := by decide

theorem test_decode_bytes :
    decodeWord 0b0110_1010_0100_0010 = .ok (.ld 0xA 0x42) ∧ decodeWord 0b0111_0001_0000_0011 = .ok (.add 0x1 0x03) ∧
    decodeWord 0b1010_0010_1111_0000 = .ok (.ldI 0x2F0) ∧ decodeWord 0b1100_0011_0000_1111 = .ok (.rnd 0x3 0x0F) := by
  decide

theorem test_decode_class8 :
    decodeWord 0b1000_0001_0010_0000 = .ok (.ldReg 1 2) ∧ decodeWord 0b1000_0001_0010_0001 = .ok (.orReg 1 2) ∧
    decodeWord 0b1000_0001_0010_0010 = .ok (.andReg 1 2) ∧ decodeWord 0b1000_0001_0010_0011 = .ok (.xorReg 1 2) ∧
    decodeWord 0b1000_0001_0010_0100 = .ok (.addReg 1 2) ∧ decodeWord 0b1000_0001_0010_0101 = .ok (.sub 1 2) ∧
    decodeWord 0b1000_0001_0010_0110 = .ok (.shr 1 2) ∧ decodeWord 0b1000_0001_0010_0111 = .ok (.subn 1 2) ∧
    decodeWord 0b1000_0001_0010_1110 = .ok (.shl 1 2) := by decide

theorem test_decode_drw : decodeWord 0b1101_0001_0010_0101 = .ok (.drw 1 2 5) := by decide

theorem test_decode_classE :
    decodeWord 0b1110_0001_1001_1110 = .ok (.skp 1) ∧ decodeWord 0b1110_0001_1010_0001 = .ok (.sknp 1) := by decide

theorem test_decode_classF :
    decodeWord 0b1111_0001_0000_0111 = .ok (.ldVxDt 1) ∧ decodeWord 0b1111_0001_0000_1010 = .ok (.ldVxK 1) ∧
    decodeWord 0b1111_0001_0001_0101 = .ok (.ldDtVx 1) ∧ decodeWord 0b1111_0001_0001_1000 = .ok (.ldStVx 1) ∧
    decodeWord 0b1111_0001_0001_1110 = .ok (.addIVx 1) ∧ decodeWord 0b1111_0001_0010_1001 = .ok (.ldFVx 1) ∧
    decodeWord 0b1111_0001_0011_0011 = .ok (.ldBVx 1) ∧ decodeWord 0b1111_0001_0101_0101 = .ok (.ldMemVx 1) ∧
    decodeWord 0b1111_0001_0110_0101 = .ok (.ldVxMem 1) := by decide

theorem test_decode_unknown :
    decodeWord 0x8AB8 = .error (.unknownOpcode 0x8AB8) ∧ decodeWord 0x8ABD = .error (.unknownOpcode 0x8ABD) ∧
    decodeWord 0x8ABF = .error (.unknownOpcode 0x8ABF) ∧ decodeWord 0xE19F = .error (.unknownOpcode 0xE19F) ∧
    decodeWord 0xF100 = .error (.unknownOpcode 0xF100) ∧ decodeWord 0xF1FF = .error (.unknownOpcode 0xF1FF) := by decide

theorem test_decode_bytes_truncated : decode [0x60#8] = .error .truncated := by decide

theorem test_decodeTableWord : decodeTableWord 16 0xA2F0 = some (.ldI 0x2F0) ∧ decodeTableWord 16 0x8008 = none := by
  decide

/-! ## Fetch (95_test_vectors.md section 2.1) -/

theorem test_fetch_odd : runs ((start []).setPc 0x201) 0x6007 (fun t => t.getV 0 == 7 && t.pc == 0x203) = true := by decide

theorem test_fetch_wraps :
    (let s := withI ((start []).setPc 0x0FFF) 0 [(0xFFF, 0x00), (0x000, 0xE0)]; s.fetchWord = 0x00E0) ∧
    (let s := (start []).setPc 0x1002; s.fetchWord = 0x9090) := by decide

/-! ## Control flow (section 2.2) -/

theorem test_sys : runs (start []) 0x0345 (fun t => t.pc == 0x345) = true := by decide
theorem test_jp : runs ((start []).setPc 0x204) 0x1204 (fun t => t.pc == 0x204) = true := by decide
theorem test_call : runs (withStack (start []) 15 0) 0x2300
    (fun t => t.stack[15] == 0x200 && t.stack[14] == 0 && t.sp == 16 && t.pc == 0x300) = true := by decide
theorem test_call_full : runs (withStack (start []) 16 7) 0x2300
    (fun t => t.err == ⟨.stackOverflow, 0x200, 0x2300⟩ && t.pc == 0x200 && t.sp == 16) = true := by decide
theorem test_ret : runs (withStack (start []) 1 0x206) 0x00EE (fun t => t.sp == 0 && t.pc == 0x208) = true := by decide
theorem test_ret_empty : runs (start []) 0x00EE
    (fun t => t.err == ⟨.stackUnderflow, 0x200, 0x00EE⟩ && t.pc == 0x200 && t.sp == 0) = true := by decide
theorem test_se : runs (start [(3, 0x42)]) 0x3342 (fun t => t.pc == 0x204) = true ∧
    runs (start [(3, 0x41)]) 0x3342 (fun t => t.pc == 0x202) = true := by decide
theorem test_sne : runs (start [(3, 0x41)]) 0x4342 (fun t => t.pc == 0x204) = true ∧
    runs (start [(3, 0x42)]) 0x4342 (fun t => t.pc == 0x202) = true := by decide
theorem test_se_reg : runs (start [(1, 7), (2, 7)]) 0x5120 (fun t => t.pc == 0x204) = true ∧
    runs (start [(1, 7), (2, 8)]) 0x5120 (fun t => t.pc == 0x202) = true := by decide
theorem test_sne_reg : runs (start [(1, 7), (2, 8)]) 0x9120 (fun t => t.pc == 0x204) = true ∧
    runs (start [(1, 7)]) 0x9110 (fun t => t.pc == 0x202) = true := by decide
theorem test_jp_v0 : runs (start [(0, 0xFF)]) 0xBFFF (fun t => t.pc == 0x10FE) = true := by decide

/-! ## Loads and the ALU (section 2.3) -/

theorem test_ld : runs (start []) 0x6A42 (fun t => t.getV 0xA == 0x42 && t.pc == 0x202) = true := by decide
theorem test_add : runs (start [(1, 0xFF), (0xF, 0x55)]) 0x7101 (fun t => t.getV 1 == 0 && t.getV 0xF == 0x55) = true := by
  decide
theorem test_ld_reg : runs (start [(2, 0x9C)]) 0x8120 (fun t => t.getV 1 == 0x9C && t.getV 2 == 0x9C) = true := by decide
theorem test_or : runs (start [(1, 0x0F), (2, 0xF0), (0xF, 0x55)]) 0x8121
    (fun t => t.getV 1 == 0xFF && t.getV 0xF == 0x55) = true := by decide
theorem test_and : runs (start [(1, 0x3C), (2, 0x0F)]) 0x8122 (fun t => t.getV 1 == 0x0C) = true := by decide
theorem test_xor : runs (start [(1, 0xFF), (2, 0x0F)]) 0x8123 (fun t => t.getV 1 == 0xF0) = true := by decide
theorem test_add_reg : runs (start [(2, 0x90)]) 0x8224 (fun t => t.getV 2 == 0x20 && t.getV 0xF == 1) = true := by decide
theorem test_add_reg_vf : runs (start [(0xF, 0xFF), (1, 1)]) 0x8F14 (fun t => t.getV 0xF == 1 && t.getV 1 == 1) = true := by
  decide
theorem test_sub : runs (start [(1, 0x10), (2, 0x20)]) 0x8125 (fun t => t.getV 1 == 0xF0 && t.getV 0xF == 0) = true := by
  decide
theorem test_sub_latches_vf : runs (start [(1, 5), (0xF, 7)]) 0x81F5 (fun t => t.getV 1 == 0xFE && t.getV 0xF == 0) = true :=
  by decide
theorem test_shr : runs (start [(1, 0xFF), (2, 0x10)]) 0x8126 (fun t => t.getV 1 == 0x7F && t.getV 0xF == 1) = true := by
  decide
theorem test_shr_vf : runs (start [(0xF, 3)]) 0x8F06 (fun t => t.getV 0xF == 1) = true := by decide
theorem test_subn : runs (start [(1, 5), (2, 7)]) 0x8127 (fun t => t.getV 1 == 2 && t.getV 0xF == 1) = true := by decide
theorem test_subn_equal : runs (start [(1, 6), (2, 6)]) 0x8127 (fun t => t.getV 1 == 0 && t.getV 0xF == 1) = true := by
  decide
theorem test_shl : runs (start [(1, 0x80)]) 0x810E (fun t => t.getV 1 == 0 && t.getV 0xF == 1) = true := by decide
theorem test_shl_bit3 : runs (start [(1, 0x08)]) 0x810E (fun t => t.getV 1 == 0x10 && t.getV 0xF == 0) = true := by decide
theorem test_ld_i : runs ((start []).setI 0xFFFF) 0xA123 (fun t => t.i == 0x0123) = true := by decide
theorem test_rnd : runs { start [] with draws := [0xA7] } 0xC30F (fun t => t.getV 3 == 0x07 && t.draws == []) = true := by
  decide

/-! ## Display (section 2.4) -/

theorem test_cls : runs (withPixels (start [(0xF, 1)]) [(5, 5), (63, 31)]) 0x00E0
    (fun t => !t.fb.pixel 5 5 && !t.fb.pixel 63 31 && t.getV 0xF == 1) = true := by decide

theorem test_drw_wraps : runs (withI (start [(0, 60)]) 0x300 [(0x300, 0xFF)]) 0xD011
    (fun t => lit t.fb [0, 1, 2, 3, 4, 59, 60, 61, 62, 63] [0, 1] ==
      [(0, 0), (1, 0), (2, 0), (3, 0), (60, 0), (61, 0), (62, 0), (63, 0)] && t.getV 0xF == 0) = true := by decide

theorem test_drw_collides : runs (withI (withPixels (start []) [(1, 0)]) 0x300 [(0x300, 0xC0)]) 0xD011
    (fun t => lit t.fb [0, 1, 2] [0, 1] == [(0, 0)] && t.getV 0xF == 1) = true := by decide

/-! ## Input and timers (section 2.5) -/

theorem test_skp : runs (withKeys (start [(2, 0x12)]) [2]) 0xE29E (fun t => t.pc == 0x204) = true ∧
    runs (start [(2, 0x0A)]) 0xE29E (fun t => t.pc == 0x202) = true := by decide
theorem test_sknp : runs (start [(2, 0x0A)]) 0xE2A1 (fun t => t.pc == 0x204) = true ∧
    runs (withKeys (start [(2, 0x0A)]) [0xA]) 0xE2A1 (fun t => t.pc == 0x202) = true := by decide
theorem test_ld_vx_dt : runs ((start []).setDt 0x3C) 0xF507 (fun t => t.getV 5 == 0x3C && t.dt == 0x3C) = true := by decide
theorem test_ld_vx_k : runs (withKeys (start []) [9, 3]) 0xF50A (fun t => t.getV 5 == 3 && t.pc == 0x202) = true := by decide
theorem test_ld_vx_k_waits : runs (start [(5, 8)]) 0xF50A (fun t => t.getV 5 == 8 && t.pc == 0x200) = true := by decide
theorem test_ld_dt_vx : runs (start [(1, 0x3C)]) 0xF115 (fun t => t.dt == 0x3C && t.st == 0) = true := by decide
theorem test_ld_st_vx : runs (start [(1, 5)]) 0xF118 (fun t => t.st == 5 && t.soundActive && t.dt == 0) = true := by decide
theorem test_tick : (((start []).setDt 1).setSt 255).tick.dt = 0 ∧ (((start []).setDt 1).setSt 255).tick.st = 254 ∧
    (start []).tick.st = 0 := by decide
theorem test_tick_before_a_step :
    runs { (start []).setDt 3 with schedule := [[.tick, .keySet 5 true]] } 0xF50A
      (fun t => t.dt == 2 && t.getV 5 == 5 && t.schedule == []) = true := by decide

/-! ## Index register and memory (section 2.6) -/

theorem test_add_i : runs ((start [(1, 1), (0xF, 0x55)]).setI 0xFFFF) 0xF11E
    (fun t => t.i == 0 && t.getV 0xF == 0x55) = true := by decide
theorem test_ld_f : runs (start [(2, 0x0F)]) 0xF229 (fun t => t.i == 0x04B) = true := by decide
theorem test_ld_f_error : runs ((start [(2, 0x10)]).setI 0x300) 0xF229
    (fun t => t.err == ⟨.outOfBoundsFontIndex, 0x200, 0xF229⟩ && t.i == 0x300 && t.pc == 0x200) = true := by decide
theorem test_ld_b : runs ((start [(3, 123)]).setI 0xFFE) 0xF333
    (fun t => t.memRead 0xFFE == 1 && t.memRead 0xFFF == 2 && t.memRead 0x000 == 3 && t.i == 0xFFE) = true := by decide
theorem test_ld_mem_vx : runs ((start [(0, 1), (1, 2), (2, 3), (3, 4)]).setI 0xFFE) 0xF355
    (fun t => t.memRead 0xFFE == 1 && t.memRead 0xFFF == 2 && t.memRead 0 == 3 && t.memRead 1 == 4 && t.memRead 2 == 0x90 &&
      t.i == 0xFFE) = true := by decide
theorem test_ld_vx_mem : runs (withI (start [(3, 9)]) 0x400 [(0x400, 1), (0x401, 2), (0x402, 3)]) 0xF265
    (fun t => t.getV 0 == 1 && t.getV 1 == 2 && t.getV 2 == 3 && t.getV 3 == 9 && t.i == 0x400) = true := by decide

/-! ## Errors and the embedding (section 2.7) -/

theorem test_unknown : runs (start []) 0x8008
    (fun t => t.stepResponse == .error .unknownOpcode 0x200 0x8008 && t.err.code.number == 1 && t.pc == 0x200) = true := by
  decide

theorem test_skip_policy :
    (match stepUnder .skip ((start []).withFetchWord 16 0x8008) with | .next t => t.pc | _ => 0) = 0x202 := by decide

/-- The next step clears ERR.code (40_cycle.md R90). -/
theorem test_next_step_clears_error :
    runs { start [] with err := ⟨.unknownOpcode, 0x200, 0x8008⟩ } 0x6005 (fun t => t.stepResponse == .ok) = true := by decide

/-! ## Witnesses: for each obligation with hypotheses, states and operands that meet them, at the ends of each range -/

/-- The reset state with an instruction word at PC. -/
abbrev at200 (w : Nat) : State := State.reset.withFetchWord 16 w

theorem witness_DecodeOfEncode : (Instr.sys 0x000).wellFormed = true ∧ (Instr.sys 0x0DF).wellFormed = true ∧
    (Instr.sys 0x0EF).wellFormed = true ∧ (Instr.sys 0xFFF).wellFormed = true ∧ (Instr.drw 15 15 15).wellFormed = true := by
  decide

theorem witness_EncodeOfDecode : decodeWord 0x0000 = .ok (.sys 0) ∧ decodeWord 0x5121 = .ok (.seReg 1 2) ∧
    decodeWord 0xFF65 = .ok (.ldVxMem 15) := by decide

theorem witness_TwelveClassesMapToOneInstruction :
    fieldC 0x0FFF = 0x0 ∧ fieldC 0x1FFF = 0x1 ∧ fieldC 0x2000 = 0x2 ∧ fieldC 0x3FFF = 0x3 ∧ fieldC 0x4000 = 0x4 ∧
    fieldC 0x5FFF = 0x5 ∧ fieldC 0x6000 = 0x6 ∧ fieldC 0x7FFF = 0x7 ∧ fieldC 0x9000 = 0x9 ∧ fieldC 0xAFFF = 0xA ∧
    fieldC 0xB000 = 0xB ∧ fieldC 0xCFFF = 0xC ∧ fieldC 0xD000 = 0xD := by decide

theorem witness_ClsAndRetAreExactWords : fieldC 0x00E0 = 0x0 ∧ fieldC 0x00EE = 0x0 ∧ fieldC 0x0FFF = 0x0 := by decide

theorem witness_SecondLevelDispatch_class8 :
    ∀ n : Nibble, fieldC (wordXYN 0x8 1 2 n) = 0x8 ∧ fieldN (wordXYN 0x8 1 2 n) = n := by decide

theorem witness_SecondLevelDispatch_classE :
    (fieldC 0xE19E = 0xE ∧ fieldKK 0xE19E = 0x9E) ∧ (fieldC 0xE1A1 = 0xE ∧ fieldKK 0xE1A1 = 0xA1) ∧
    (fieldC 0xE1A0 = 0xE ∧ fieldKK 0xE1A0 ∉ [0x9E#8, 0xA1#8]) := by decide

theorem witness_SecondLevelDispatch_classF :
    (∀ kk ∈ [0x07#8, 0x0A#8, 0x15#8, 0x18#8, 0x1E#8, 0x29#8, 0x33#8, 0x55#8, 0x65#8],
      fieldC (wordXKK 0xF 1 kk) = 0xF ∧ fieldKK (wordXKK 0xF 1 kk) = kk) ∧
    (fieldC 0xF108 = 0xF ∧ fieldKK 0xF108 ∉ [0x07#8, 0x0A#8, 0x15#8, 0x18#8, 0x1E#8, 0x29#8, 0x33#8, 0x55#8, 0x65#8]) := by
  decide

theorem witness_DecoderAgreesWithOpcodeTable :
    decodeWord 0x00E0 = .ok .cls ∧ (Instr.sys 0x0E0).row.selects 0x00E0 = true ∧ Instr.cls.row.selects 0x00E0 = true ∧
    decodeWord 0x8008 = .error (.unknownOpcode 0x8008) := by decide

theorem witness_StepRunsDecodedInstruction :
    decodeWord (at200 0xA2F0).settle.fetchWord = .ok (.ldI 0x2F0) ∧ State.reset.schedule = [] ∧
    decodeWord (State.settle { State.reset with schedule := [[.tick]] }).fetchWord = .ok (.sys 0) := by decide

theorem witness_UnknownOpcodeIsReportedWithoutEffect :
    decodeWord (at200 0x8008).settle.fetchWord = .error (.unknownOpcode 0x8008) ∧ fieldC 0x0FFF = 0x0 ∧
    fieldC 0x5FFF = 0x5 ∧ fieldC 0x9FFF = 0x9 := by decide

/-- A step without an error, and one with each of the four errors. -/
theorem witness_ErrorsAreExactAndPrecise :
    runs .reset 0x6005 (fun t => t.err.code == .none) = true ∧ runs .reset 0x8008 (fun t => t.err.code == .unknownOpcode) = true ∧
    runs (withStack .reset 16 0) 0x2300 (fun t => t.err.code == .stackOverflow) = true ∧
    runs .reset 0x00EE (fun t => t.err.code == .stackUnderflow) = true ∧
    runs (start [(0, 16)]) 0xF029 (fun t => t.err.code == .outOfBoundsFontIndex) = true := by decide

theorem witness_ErrorRepeatsUntilSkipped : ∃ t, step (at200 0x00EE) = .next t ∧ ¬ t.good ∧ t.schedule = [] :=
  ⟨_, rfl, by decide, rfl⟩

theorem witness_reset_Inv : State.reset.Inv := by decide

theorem witness_StepKeepsMemoryCanonical : (start [(0, 7)]).Inv ∧
    ∃ t, step ((start [(0, 7)]).withFetchWord 16 0xF033) = .next t ∧ t.memRead 2 = 7 := ⟨by decide, _, rfl, by decide⟩

theorem witness_TransactionsKeepMemoryCanonical : State.reset.Inv ∧
    ∃ t, transactAll [.load 0x200 0x60, .load 0x201 0x05, .tick, .step, .keySet 3 true, .fbRead 63 31, .skipError]
      State.reset = .next t ∧ t.pc = 0x204 := ⟨by decide, _, rfl, by decide⟩

theorem witness_StepsDoNotTickTimers :
    (∃ t, step (at200 0x6005) = .next t) ∧ ∃ t, step ((start [(1, 9)]).withFetchWord 16 0xF115) = .next t ∧ t.dt = 9 :=
  ⟨⟨_, rfl⟩, _, rfl, by decide⟩

theorem witness_InstructionsWriteOnlyTheirWriteSets : (∃ t, exec (.ldMemVx 3) (start [(3, 9)]) = .next t) ∧
    (∃ t, exec (.ldBVx 3) ((start [(3, 123)]).setI 0xFFE) = .next t) ∧ ∃ t, exec (.call 0x300) (withStack .reset 15 0) = .next t :=
  ⟨⟨_, rfl⟩, ⟨_, rfl⟩, _, rfl⟩

theorem witness_FlagInstructionsLeaveZeroOrOne : ∃ t, exec (.addReg 0xF 0) (start [(0xF, 255), (0, 255)]) = .next t ∧
    Instr.addReg 0xF 0 ∈ [Instr.addReg 0xF 0, .sub 0xF 0, .shr 0xF 0, .subn 0xF 0, .shl 0xF 0, .drw 0xF 0 5] :=
  ⟨_, rfl, by decide⟩

theorem witness_CallPushesItsAddress :
    State.reset.sp.val < 16 ∧ (withStack .reset 15 0).sp.val < 16 ∧ (withStack .reset 16 0).sp.val = 16 ∧
    fieldC 0x2FFF = 0x2 := by decide

theorem witness_RetReturnsPastTheCall :
    (withStack .reset 1 0).sp.val = (0 : Fin 16).val + 1 ∧ (withStack .reset 16 0).sp.val = (15 : Fin 16).val + 1 ∧
    State.reset.sp.val = 0 := by decide

theorem witness_CallThenRetContinuesAfterTheCall : (withStack .reset 15 3).sp.val < 16 ∧
    ∃ t, exec (.call 0x300) (withStack .reset 15 3) = .next t ∧ Part.Same t (t.setPc 0x300) .calls :=
  ⟨by decide, _, rfl, rfl, rfl⟩

theorem witness_ImmediateSkips : fieldC 0x3FFF = 0x3 ∧ fieldC 0x4FFF = 0x4 ∧ (start [(1, 5)]).getV 1 = 5 := by decide

theorem witness_ImmediateLoadAndAdd : fieldC 0x6FFF = 0x6 ∧ fieldC 0x7FFF = 0x7 := by decide

theorem witness_flag_destination : (0 : RegIx) ≠ 0xF ∧ (14 : RegIx) ≠ 0xF := by decide

theorem witness_JumpsSetPcAbsolutely : fieldC 0x1FFF = 0x1 ∧ fieldC 0xBFFF = 0xB := by decide

theorem witness_LoadIndexImmediate : fieldC 0xAFFF = 0xA := by decide

theorem witness_RndMasksOneDraw : State.reset.draws = [] ∧
    State.draws { State.reset with draws := [0xA7, 1] } = (0xA7 : Byte) :: [1] := by decide

/-- A covered pixel that was 0 (the second draw collides), and all covered pixels 1 (it does not). -/
theorem witness_DrawingTwiceRestores :
    (∃ t, exec (.drw 1 2 1) (withI (start [(1, 255)]) 0x300 [(0x300, 0x80)]) = .next t ∧
      t.getV 1 = (255 : Byte) ∧ t.getV 2 = 0 ∧ t.fb.pixel 63 0 = true) ∧
    ∃ t, exec (.drw 1 2 1) (withPixels (withI (start [(1, 255)]) 0x300 [(0x300, 0x80)]) [(63, 0)]) = .next t ∧
      t.getV 1 = (255 : Byte) ∧ t.getV 2 = 0 ∧ t.fb.pixel 63 0 = false :=
  ⟨⟨_, rfl, by decide, by decide, by decide⟩, _, rfl, by decide, by decide, by decide⟩

theorem witness_KeySkips : (15 : KeyIx).toNat = ((start [(1, 0xFF)]).getV 1).toNat % 16 ∧
    (0 : KeyIx).toNat = ((start [(1, 0x10)]).getV 1).toNat % 16 ∧ (withKeys .reset [15]).key 15 = true := by decide

theorem witness_KeyWaitTakesTheLowestKey :
    ((withKeys .reset [0, 15]).key 0 = true ∧ ∀ j : KeyIx, j.toNat < 0 → (withKeys .reset [0, 15]).key j = false) ∧
    ((withKeys .reset [15]).key 15 = true ∧ ∀ j : KeyIx, j.toNat < 15 → (withKeys .reset [15]).key j = false) ∧
    ∀ k, State.reset.key k = false := by decide

theorem witness_ManyTicksCountDown :
    State.schedule { State.reset with schedule := [[.tick, .tick]] } = List.replicate 2 .tick :: [] ∧
    State.schedule { State.reset with schedule := [[]] } = List.replicate 0 .tick :: [] := by decide

theorem witness_LoadFontAddress : ((start [(1, 0)]).getV 1).toNat ≤ 15 ∧ ((start [(1, 15)]).getV 1).toNat ≤ 15 ∧
    ((start [(1, 16)]).getV 1).toNat > 15 ∧ ((start [(1, 255)]).getV 1).toNat > 15 := by decide

/-- Canonical memory with a byte stored at each end, for the three transfers that read back what they store. -/
theorem witness_StoresReadBack : (withI .reset 0xFFFF [(0x000, 1), (0xFFF, 2)]).Inv ∧ (0 : RegIx).toNat ≤ (0 : RegIx).toNat ∧
    (15 : RegIx).toNat ≤ (15 : RegIx).toNat := by decide

theorem witness_StoreThenLoadBringsRegistersBack : State.reset.Inv ∧
    ∃ t, exec (.ldMemVx 15) (start [(15, 9)]) = .next t ∧ Part.Same t (t.setPc 0x300) .memory ∧
      Part.Same t (t.setPc 0x300) .index := ⟨by decide, _, rfl, fun _ => rfl, rfl⟩

/-- V1 stored at 0x200: the high byte at PC 0x200, the low byte at PC 0x1FF, and at a PC above 0xFFF. -/
theorem witness_StoresAreSeenByTheNextFetch : (start [(1, 9)]).Inv ∧
    (∃ t, exec (.ldMemVx 1) ((start [(1, 9)]).setI 0x1FF) = .next t) ∧
    (0x200#16).toNat % 4096 = (0x1FF + (1 : RegIx).toNat) % 4096 ∧
    ((0x1FF#16).toNat + 1) % 4096 = (0x1FF + (1 : RegIx).toNat) % 4096 ∧
    ((0xFFFF#16).toNat + 1) % 4096 = (0xFFF + (1 : RegIx).toNat) % 4096 := ⟨by decide, ⟨_, rfl⟩, by decide⟩

/-- The digits of 123: the one at offset 0 as a high byte, the one at offset 2 as a low byte past 0xFFF. -/
theorem witness_StoresAreSeenByTheNextFetch_digits : (start [(1, 123)]).Inv ∧
    (∃ t, exec (.ldBVx 1) ((start [(1, 123)]).setI 0xFFF) = .next t) ∧
    (0xFFF#16).toNat % 4096 = (0xFFF + (0 : Fin 3).val) % 4096 ∧
    ((0x1000#16).toNat + 1) % 4096 = (0xFFF + (2 : Fin 3).val) % 4096 := ⟨by decide, ⟨_, rfl⟩, by decide⟩

theorem witness_ResetLeavesTheSpecsState : 80 ≤ 80 ∧ 80 < 4096 ∧ 80 ≤ 4095 ∧ 4095 < 4096 := by decide

/-- An empty image, one that just fits and one a byte too long; addresses on either side of the image. -/
theorem witness_LaunchLoadsTheImage :
    ([] : List Byte).length ≤ 3584 ∧ (List.replicate 3584 (0x60 : Byte)).length ≤ 3584 ∧
    (List.replicate 3585 (0x60 : Byte)).length > 3584 ∧ 3583 < (List.replicate 3584 (0x60 : Byte)).length ∧
    (0x1FF < 4096 ∧ 0x1FF < 0x200) ∧ (0x200 + [(0x60 : Byte)].length ≤ 0x201) :=
  ⟨Nat.zero_le _, by rw [List.length_replicate], by rw [List.length_replicate]; decide,
    by rw [List.length_replicate]; decide, by decide, by decide⟩

theorem witness_KeySetWritesOneKey : (0 : KeyIx) ≠ 15 := by decide

theorem witness_ErrorPolicyAfterAStep : (∃ t, step (at200 0x6005) = .next t ∧ t.good) ∧
    ∃ t, step (at200 0x8008) = .next t ∧ ¬ t.good := ⟨⟨_, rfl, by decide⟩, _, rfl, by decide⟩

theorem witness_PlacedWordRunsNext : State.reset.Inv ∧ decodeTableWord 16 0xA2F0 = some (.ldI 0x2F0) ∧
    ((start []).setPc 0xFFFF).Inv := by decide

/-- A canonical memory for the load, in a state that a step led to, with addresses at both ends and past the end. -/
theorem witness_ResetLoadStepAndSkipTransactions : State.reset.Inv ∧
    ∃ t, step (at200 0x6005) = .next t ∧ t.Inv ∧ (t.load 0x1FFF 7).memRead 0xFFF = 7 := ⟨by decide, _, rfl, by decide⟩

theorem witness_ScheduledEventsTakeEffectInOrder :
    State.schedule { State.reset with schedule := [[]] } = [] :: [] ∧
    State.schedule { State.reset with schedule := [[.tick, .skipError], []] } = (.tick :: [.skipError]) :: [[]] ∧
    State.schedule { State.reset with schedule := [[.keySet 15 true]] } = (.keySet 15 true :: []) :: [] ∧
    State.schedule { State.reset with schedule := [[.skipError]] } = (.skipError :: []) :: [] := by decide

end Sys2Proof.Tests
end

/-! # Frames: what each operation and each instruction leaves unchanged

`SameBut`, `RegsBut` and `BytesBut` compose along a sequence of updates; one rule for each named update of the state then
gives the frame of an instruction as the composition of the updates its meaning makes. -/

namespace Sys2Proof.Machine

open Sys2Proof

section Composition

variable {s t u : State}

@[simp] theorem Part.same_refl (s : State) (p : Part) : p.Same s s := by
  cases p <;> simp [Part.Same]

theorem Part.Same.trans {p : Part} (h₁ : p.Same s t) (h₂ : p.Same t u) : p.Same s u := by
  cases p <;> simp_all [Part.Same]

theorem SameBut.refl (ps : List Part) (s : State) : SameBut ps s s := fun p _ => p.same_refl s

theorem SameBut.mono {ps qs : List Part} (h : SameBut ps s t) (hsub : ps ⊆ qs) : SameBut qs s t :=
  fun p hp => h p fun hmem => hp (hsub hmem)

theorem SameBut.trans {ps qs : List Part} (h₁ : SameBut ps s t) (h₂ : SameBut qs t u) : SameBut (ps ++ qs) s u := by
  intro p hp
  rw [List.mem_append, not_or] at hp
  exact (h₁ p hp.1).trans (h₂ p hp.2)

theorem RegsBut.trans {xs ys : List RegIx} (h₁ : RegsBut xs s t) (h₂ : RegsBut ys t u) : RegsBut (xs ++ ys) s u := by
  intro j hj
  rw [List.mem_append, not_or] at hj
  exact (h₂ j hj.2).trans (h₁ j hj.1)

theorem BytesBut.trans {as bs : List Nat} (h₁ : BytesBut as s t) (h₂ : BytesBut bs t u) : BytesBut (as ++ bs) s u :=
  fun a ha => (h₂ a fun c hc => ha c (List.mem_append_right as hc)).trans
    (h₁ a fun c hc => ha c (List.mem_append_left bs hc))

end Composition

/-! ## One rule for each update of the state -/

section Updates

variable (s : State)

theorem sameBut_setV (x : RegIx) (b : Byte) : SameBut [.regs] s (s.setV x b) := by
  intro p hp
  cases p <;> simp_all [Part.Same]

theorem sameBut_setI (w : Word) : SameBut [.index] s (s.setI w) := by
  intro p hp
  cases p <;> simp_all [Part.Same]

theorem sameBut_setDt (b : Byte) : SameBut [.dt] s (s.setDt b) := by
  intro p hp
  cases p <;> simp_all [Part.Same]

theorem sameBut_setSt (b : Byte) : SameBut [.st] s (s.setSt b) := by
  intro p hp
  cases p <;> simp_all [Part.Same]

theorem sameBut_setPc (w : Word) : SameBut [.pc] s (s.setPc w) := by
  intro p hp
  cases p <;> simp_all [Part.Same]

theorem sameBut_push (w : Word) (h : s.sp.val < 16) : SameBut [.calls] s (s.push w h) := by
  intro p hp
  cases p <;> simp_all [Part.Same]

theorem sameBut_pop : SameBut [.calls] s s.pop := by
  intro p hp
  cases p <;> simp_all [Part.Same]

theorem sameBut_setFb (fb : Framebuffer) : SameBut [.screen] s (s.setFb fb) := by
  intro p hp
  cases p <;> simp_all [Part.Same]

theorem sameBut_drawTaken : SameBut [.draws] s s.drawTaken := by
  intro p hp
  cases p <;> simp_all [Part.Same]

theorem sameBut_raise (c : ErrCode) : SameBut [.err] s (s.raise c) := by
  intro p hp
  cases p <;> simp_all [Part.Same]

theorem sameBut_tick : SameBut [.dt, .st] s s.tick := by
  intro p hp
  cases p <;> simp_all [Part.Same]

theorem sameBut_memWrite (a : Nat) (b : Byte) : SameBut [.memory] s (s.memWrite a b) := by
  intro p hp
  cases p <;> simp_all [Part.Same]

theorem sameBut_storeRegs (n : Nat) : SameBut [.memory] s (s.storeRegs n) := by
  induction n with
  | zero => exact SameBut.refl _ s
  | succ n ih => exact (ih.trans (sameBut_memWrite _ _ _)).mono (by simp)

theorem sameBut_loadRegs (n : Nat) : SameBut [.regs] s (s.loadRegs n) := by
  induction n with
  | zero => exact SameBut.refl _ s
  | succ n ih => exact (ih.trans (sameBut_setV _ _ _)).mono (by simp)

theorem sameBut_finishFlagged (x : RegIx) (result flag : Byte) :
    SameBut [.regs, .pc] s (s.finishFlagged x result flag) :=
  (((sameBut_setV s x result).trans (sameBut_setV _ 0xF#4 flag)).trans (sameBut_setPc _ _)).mono (by simp)

theorem regsBut_setV (x : RegIx) (b : Byte) : RegsBut [x] s (s.setV x b) := fun _ hj =>
  State.getV_setV_of_ne s (List.ne_of_not_mem_cons hj) b

theorem regsBut_finishFlagged (x : RegIx) (result flag : Byte) :
    RegsBut [x, 0xF#4] s (s.finishFlagged x result flag) :=
  (regsBut_setV s x result).trans (regsBut_setV _ 0xF#4 flag)

theorem regsBut_loadRegs {n : Nat} (hn : n ≤ 16) :
    RegsBut ((List.range n).map (BitVec.ofNat 4)) s (s.loadRegs n) := by
  intro j hj
  rw [State.getV_loadRegs s hn, if_neg]
  exact fun hlt => hj (List.mem_map.2 ⟨j.toNat, List.mem_range.2 hlt, by simp⟩)

theorem bytesBut_memWrite (a : Nat) (b : Byte) : BytesBut [a] s (s.memWrite a b) := fun _ hn =>
  State.memRead_memWrite_of_ne s (hn a List.mem_cons_self) b

theorem bytesBut_storeRegs (n : Nat) : BytesBut ((List.range n).map s.addrI) s (s.storeRegs n) := fun _ ha =>
  State.memRead_storeRegs_of_ne s fun k hk => ha (s.addrI k) (List.mem_map_of_mem (List.mem_range.2 hk))

end Updates

/-! ## The instructions with two outcomes -/

section Outcomes

variable {s t : State}

/-- RET returns, or reports the empty stack (41_control_flow.md R102). -/
theorem exec_ret_cases (h : exec .ret s = .next t) :
    (∃ hsp : 0 < s.sp.val, t = s.pop.setPc (s.top hsp + 2#16)) ∨ (s.sp.val = 0 ∧ t = s.raise .stackUnderflow) := by
  simp only [exec, execRet] at h
  split at h
  case isTrue hsp =>
    cases h
    exact .inl ⟨hsp, rfl⟩
  case isFalse hsp =>
    cases h
    exact .inr ⟨Nat.eq_zero_of_not_pos hsp, rfl⟩

/-- CALL pushes and jumps, or reports the full stack (41_control_flow.md R104). -/
theorem exec_call_cases {nnn : Addr12} (h : exec (.call nnn) s = .next t) :
    (∃ hsp : s.sp.val < 16, t = (s.push s.pc hsp).setPc (zextAddr nnn)) ∨
      (s.sp.val = 16 ∧ t = s.raise .stackOverflow) := by
  simp only [exec, execCall] at h
  split at h
  case isTrue hsp =>
    cases h
    exact .inl ⟨hsp, rfl⟩
  case isFalse hsp =>
    cases h
    exact .inr ⟨by omega, rfl⟩

/-- LD F,VX points I at the glyph, or reports a value above 15 (45_index_memory.md R162). -/
theorem exec_ldFVx_cases {x : RegIx} (h : exec (.ldFVx x) s = .next t) :
    ((s.getV x).toNat > 15 ∧ t = s.raise .outOfBoundsFontIndex) ∨
      ((s.getV x).toNat ≤ 15 ∧ t = (s.setI (zextByte (s.getV x) * 5#16)).advance) := by
  simp only [exec, execLdFVx] at h
  split at h
  case isTrue hv =>
    cases h
    exact .inl ⟨hv, rfl⟩
  case isFalse hv =>
    cases h
    exact .inr ⟨Nat.le_of_not_lt hv, rfl⟩

/-- LD VX,K takes the lowest pressed key, or stays where it is (44_input_timer.md R153). -/
theorem exec_ldVxK_cases {x : RegIx} (h : exec (.ldVxK x) s = .next t) :
    (∃ k, s.firstKey = some k ∧ t = (s.setV x (BitVec.ofNat 8 k)).advance) ∨ (s.firstKey = none ∧ t = s) := by
  simp only [exec, execLdVxK] at h
  split at h
  case h_1 k hk =>
    cases h
    exact .inl ⟨k, hk, rfl⟩
  case h_2 hk =>
    cases h
    exact .inr ⟨hk, rfl⟩

end Outcomes

/-! ## The parts an instruction writes -/

/-- The parts of the state that an instruction can write, PC and ERR among them (10_state.md R22; `exec_sameBut`). -/
def writtenParts : Instr → List Part
  | .sys _ | .jp _ | .jpV0 _ | .se _ _ | .sne _ _ | .seReg _ _ | .sneReg _ _ | .skp _ | .sknp _ => [.pc]
  | .cls => [.screen, .pc]
  | .ret | .call _ => [.calls, .pc, .err]
  | .ld _ _ | .add _ _ | .ldReg _ _ | .orReg _ _ | .andReg _ _ | .xorReg _ _ | .addReg _ _ | .sub _ _ | .shr _ _
  | .subn _ _ | .shl _ _ | .ldVxDt _ | .ldVxK _ | .ldVxMem _ => [.regs, .pc]
  | .rnd _ _ => [.draws, .regs, .pc]
  | .drw _ _ _ => [.screen, .regs, .pc]
  | .ldDtVx _ => [.dt, .pc]
  | .ldStVx _ => [.st, .pc]
  | .ldI _ | .addIVx _ => [.index, .pc]
  | .ldFVx _ => [.index, .pc, .err]
  | .ldBVx _ | .ldMemVx _ => [.memory, .pc]

/-- The frame of every instruction. -/
theorem exec_sameBut {i : Instr} {s t : State} (h : exec i s = .next t) : SameBut (writtenParts i) s t := by
  cases i with
  | sys nnn | jp nnn | jpV0 nnn | se x kk | sne x kk | seReg x y | sneReg x y | skp x | sknp x =>
    cases h
    exact sameBut_setPc _ _
  | cls =>
    cases h
    exact (sameBut_setFb _ _).trans (sameBut_setPc _ _)
  | ret =>
    rcases exec_ret_cases h with ⟨hsp, rfl⟩ | ⟨-, rfl⟩
    · exact ((sameBut_pop _).trans (sameBut_setPc _ _)).mono (by simp [writtenParts])
    · exact (sameBut_raise _ _).mono (by simp [writtenParts])
  | call nnn =>
    rcases exec_call_cases h with ⟨hsp, rfl⟩ | ⟨-, rfl⟩
    · exact ((sameBut_push _ _ hsp).trans (sameBut_setPc _ _)).mono (by simp [writtenParts])
    · exact (sameBut_raise _ _).mono (by simp [writtenParts])
  | ld x kk | add x kk | ldReg x y | orReg x y | andReg x y | xorReg x y | ldVxDt x =>
    cases h
    exact (sameBut_setV _ _ _).trans (sameBut_setPc _ _)
  | addReg x y | sub x y | shr x y | subn x y | shl x y =>
    cases h
    exact sameBut_finishFlagged _ _ _ _
  | ldVxK x =>
    rcases exec_ldVxK_cases h with ⟨k, -, rfl⟩ | ⟨-, rfl⟩
    · exact (sameBut_setV _ _ _).trans (sameBut_setPc _ _)
    · exact SameBut.refl _ _
  | ldVxMem x =>
    cases h
    exact (sameBut_loadRegs _ _).trans (sameBut_setPc _ _)
  | rnd x kk =>
    cases h
    exact ((sameBut_drawTaken _).trans (sameBut_setV _ _ _)).trans (sameBut_setPc _ _)
  | drw x y n =>
    cases h
    exact ((sameBut_setFb _ _).trans (sameBut_setV _ _ _)).trans (sameBut_setPc _ _)
  | ldDtVx x =>
    cases h
    exact (sameBut_setDt _ _).trans (sameBut_setPc _ _)
  | ldStVx x =>
    cases h
    exact (sameBut_setSt _ _).trans (sameBut_setPc _ _)
  | ldI nnn | addIVx x =>
    cases h
    exact (sameBut_setI _ _).trans (sameBut_setPc _ _)
  | ldFVx x =>
    rcases exec_ldFVx_cases h with ⟨-, rfl⟩ | ⟨-, rfl⟩
    · exact (sameBut_raise _ _).mono (by simp [writtenParts])
    · exact ((sameBut_setI _ _).trans (sameBut_setPc _ _)).mono (by simp [writtenParts])
  | ldBVx x =>
    cases h
    exact ((((sameBut_memWrite _ _ _).trans (sameBut_memWrite _ _ _)).trans (sameBut_memWrite _ _ _)).trans
      (sameBut_setPc _ _)).mono (by simp [writtenParts])
  | ldMemVx x =>
    cases h
    exact (sameBut_storeRegs _ _).trans (sameBut_setPc _ _)

section WhichInstructions

variable {i : Instr}

theorem calls_mem_writtenParts : .calls ∈ writtenParts i ↔ i = .ret ∨ ∃ nnn, i = .call nnn := by
  cases i <;> simp [writtenParts]

theorem screen_mem_writtenParts : .screen ∈ writtenParts i ↔ i = .cls ∨ ∃ x y n, i = .drw x y n := by
  cases i <;> simp [writtenParts]

theorem index_mem_writtenParts :
    .index ∈ writtenParts i ↔ (∃ nnn, i = .ldI nnn) ∨ ∃ x, i = .addIVx x ∨ i = .ldFVx x := by
  cases i <;> simp [writtenParts]

theorem dt_mem_writtenParts : .dt ∈ writtenParts i ↔ ∃ x, i = .ldDtVx x := by
  cases i <;> simp [writtenParts]

theorem st_mem_writtenParts : .st ∈ writtenParts i ↔ ∃ x, i = .ldStVx x := by
  cases i <;> simp [writtenParts]

theorem memory_mem_writtenParts : .memory ∈ writtenParts i ↔ (∃ x, i = .ldBVx x) ∨ ∃ x, i = .ldMemVx x := by
  cases i <;> simp [writtenParts]

theorem draws_mem_writtenParts : .draws ∈ writtenParts i ↔ ∃ x kk, i = .rnd x kk := by
  cases i <;> simp [writtenParts]

theorem err_mem_writtenParts :
    .err ∈ writtenParts i ↔ i = .ret ∨ (∃ nnn, i = .call nnn) ∨ ∃ x, i = .ldFVx x := by
  cases i <;> simp [writtenParts]

theorem keys_not_mem_writtenParts (i : Instr) : .keys ∉ writtenParts i := by
  cases i <;> simp [writtenParts]

theorem schedule_not_mem_writtenParts (i : Instr) : .schedule ∉ writtenParts i := by
  cases i <;> simp [writtenParts]

end WhichInstructions

/-! ## Inside a written part: the registers, bytes and stack entries that stay -/

/-- The general registers outside an instruction's destinations keep their values (10_state.md R22). -/
theorem exec_regsBut {i : Instr} {s t : State} (h : exec i s = .next t) : RegsBut (destinations i) s t := by
  cases i with
  | sys nnn | jp nnn | jpV0 nnn | se x kk | sne x kk | seReg x y | sneReg x y | skp x | sknp x | cls | ret | call nnn
  | ldDtVx x | ldStVx x | ldI nnn | addIVx x | ldFVx x | ldBVx x | ldMemVx x =>
    exact fun j _ => exec_sameBut h .regs (by simp [writtenParts]) j
  | ld x kk | add x kk | ldReg x y | orReg x y | andReg x y | xorReg x y | ldVxDt x | rnd x kk =>
    cases h
    exact regsBut_setV _ _ _
  | addReg x y | sub x y | shr x y | subn x y | shl x y =>
    cases h
    exact regsBut_finishFlagged _ _ _ _
  | ldVxK x =>
    rcases exec_ldVxK_cases h with ⟨k, -, rfl⟩ | ⟨-, rfl⟩
    · exact regsBut_setV _ _ _
    · exact fun _ _ => rfl
  | drw x y n =>
    cases h
    exact regsBut_setV _ _ _
  | ldVxMem x =>
    cases h
    exact regsBut_loadRegs _ x.isLt

/-- LD B,VX writes the three bytes at I alone (45_index_memory.md R163). -/
theorem exec_ldBVx_bytesBut {x : RegIx} {s t : State} (h : exec (.ldBVx x) s = .next t) :
    BytesBut [s.addrI 0, s.addrI 1, s.addrI 2] s t := by
  cases h
  exact ((bytesBut_memWrite _ _ _).trans (bytesBut_memWrite _ _ _)).trans (bytesBut_memWrite _ _ _)

/-- LD [I],VX writes the X + 1 bytes at I alone (45_index_memory.md R164). -/
theorem exec_ldMemVx_bytesBut {x : RegIx} {s t : State} (h : exec (.ldMemVx x) s = .next t) :
    BytesBut ((List.range (x.toNat + 1)).map s.addrI) s t := by
  cases h
  exact bytesBut_storeRegs _ _

/-- A popped entry keeps its value (41_control_flow.md R102). -/
theorem exec_ret_stack {s t : State} (h : exec .ret s = .next t) : t.stack = s.stack := by
  rcases exec_ret_cases h with ⟨hsp, rfl⟩ | ⟨-, rfl⟩ <;> rfl

/-- CALL writes no stack entry but Stack[SP] (41_control_flow.md R104). -/
theorem exec_call_stack_of_ne {nnn : Addr12} {s t : State} (h : exec (.call nnn) s = .next t) {k : Fin 16}
    (hk : k.val ≠ s.sp.val) : t.stack[k] = s.stack[k] := by
  rcases exec_call_cases h with ⟨hsp, rfl⟩ | ⟨-, rfl⟩
  · exact Vector.getElem_set_ne hsp k.isLt hk.symm
  · rfl

/-! ## The obligations of 10_state.md -/

/-- Settles O19: a part that changed is one of the instruction's `writtenParts`, and inside the registers, memory and the
call stack only the listed entries change. -/
theorem instructionsWriteOnlyTheirWriteSets : Obligations.InstructionsWriteOnlyTheirWriteSets := by
  intro i s t h
  have same_or_written (p : Part) : p.Same s t ∨ p ∈ writtenParts i := or_iff_not_imp_right.2 (exec_sameBut h p)
  refine ⟨(same_or_written .calls).imp_right fun hc => ?calls,
    (same_or_written .screen).imp_right screen_mem_writtenParts.1,
    (same_or_written .index).imp_right index_mem_writtenParts.1,
    (same_or_written .dt).imp_right dt_mem_writtenParts.1,
    (same_or_written .st).imp_right st_mem_writtenParts.1,
    (same_or_written .memory).imp_right fun hm => ?memory,
    (same_or_written .draws).imp_right draws_mem_writtenParts.1,
    (same_or_written .err).imp_right err_mem_writtenParts.1,
    exec_sameBut h .keys (keys_not_mem_writtenParts i), exec_sameBut h .schedule (schedule_not_mem_writtenParts i),
    exec_regsBut h⟩
  case calls =>
    rcases calls_mem_writtenParts.1 hc with rfl | ⟨nnn, rfl⟩
    · exact .inl ⟨rfl, exec_ret_stack h⟩
    · exact .inr ⟨nnn, rfl, fun _ => exec_call_stack_of_ne h⟩
  case memory =>
    rcases memory_mem_writtenParts.1 hm with ⟨x, rfl⟩ | ⟨x, rfl⟩
    · exact .inl ⟨x, rfl, exec_ldBVx_bytesBut h⟩
    · exact .inr ⟨x, rfl, exec_ldMemVx_bytesBut h⟩

/-- Settles O41: each timer counts down by `toNat_countDown`, and a tick writes nothing else. -/
theorem tickCountsDownToZero : Obligations.TickCountsDownToZero := fun s =>
  ⟨rfl, State.toNat_countDown s.dt, State.toNat_countDown s.st, sameBut_tick s⟩

/-- `sound_active` is ST != 0 (10_state.md R47). -/
@[simp] theorem soundActive_eq_true_iff (s : State) : s.soundActive = true ↔ s.st.toNat ≠ 0 := by
  rw [State.soundActive, bne_iff_ne, ne_eq, ← BitVec.toNat_inj]
  rfl

/-- Settles O53: `fb_read` answers with the state it was given. -/
theorem readOnlyPorts : Obligations.ReadOnlyPorts :=
  ⟨fun _ _ _ => rfl, soundActive_eq_true_iff⟩

end Sys2Proof.Machine

/-! # Memory: what a store leaves there, and what a fetch reads

A fetch reads its two bytes through `memRead`, so a store is seen by a fetch once the byte stored is known to be read back. -/

namespace Sys2Proof

@[simp] theorem highByte_wordOfBytes (hi lo : Byte) : highByte (wordOfBytes hi lo) = hi :=
  BitVec.extractLsb'_append_eq_left

@[simp] theorem lowByte_wordOfBytes (hi lo : Byte) : lowByte (wordOfBytes hi lo) = lo :=
  BitVec.extractLsb'_append_eq_right

end Sys2Proof

namespace Sys2Proof.Machine

open Sys2Proof

/-! ## What a fetch reads -/

section Fetch

variable {s : State} {a : Word} {n : Nat}

/-- Addresses equal mod 4096 read the same byte (20_memory.md R53). -/
theorem State.memRead_congr {m : Nat} (h : m % Config.memSize = n % Config.memSize) : s.memRead m = s.memRead n := by
  rw [← State.memRead_mod, h, State.memRead_mod]

/-- The high byte fetched is the byte at PC (20_memory.md R51). -/
theorem highByte_fetchWord_setPc (h : a.toNat % Config.memSize = n % Config.memSize) :
    highByte (s.setPc a).fetchWord = s.memRead n :=
  (highByte_wordOfBytes _ _).trans (State.memRead_congr h)

/-- The low byte fetched is the byte at PC + 1; 4096 divides 0x10000, so the wrap of PC does not show (R51, R53). -/
theorem lowByte_fetchWord_setPc (h : (a.toNat + 1) % Config.memSize = n % Config.memSize) :
    lowByte (s.setPc a).fetchWord = s.memRead n := by
  have next_mod : (a + 1#16).toNat % Config.memSize = (a.toNat + 1) % Config.memSize := by
    simp only [Config.memSize, BitVec.toNat_add, BitVec.toNat_ofNat]
    omega
  exact (lowByte_wordOfBytes _ _).trans (State.memRead_congr (next_mod.trans h))

end Fetch

/-! ## What the two storing instructions leave in memory -/

/-- Offsets below 16 from I name one byte only when they are equal. -/
theorem State.addrI_mod_eq_iff (s : State) {j k : Nat} (hj : j < 16) (hk : k < 16) :
    s.addrI j % Config.memSize = s.addrI k % Config.memSize ↔ j = k :=
  ⟨State.addrI_mod_inj s hj hk, fun e => e ▸ rfl⟩

section Stores

variable {x : RegIx} {s t : State}

/-- LD [I],VX leaves V[k] at I + k, for k up to X (45_index_memory.md R164). -/
theorem memRead_exec_ldMemVx (hs : s.Inv) (h : exec (.ldMemVx x) s = .next t) {k : RegIx} (hk : k.toNat ≤ x.toNat) :
    t.memRead (s.addrI k.toNat) = s.getV k := by
  cases h
  have stored := State.memRead_storeRegs hs (Nat.succ_le_of_lt x.isLt) (Nat.lt_succ_of_le hk)
  rwa [BitVec.ofNat_toNat, BitVec.setWidth_eq] at stored

/-- The digits of a byte, hundreds first. -/
def decimalDigit (v : Byte) : Fin 3 → Byte
  | 0 => hundredsDigit v
  | 1 => tensDigit v
  | 2 => onesDigit v

theorem toNat_decimalDigit (v : Byte) (k : Fin 3) : (decimalDigit v k).toNat = v.toNat / 10 ^ (2 - k.val) % 10 := by
  have hv := v.isLt
  match k with
  | 0 => change v.toNat / 100 % 256 = v.toNat / 100 % 10; omega
  | 1 => change v.toNat / 10 % 10 % 256 = v.toNat / 10 % 10; omega
  | 2 => change v.toNat % 10 % 256 = v.toNat / 1 % 10; omega

/-- LD B,VX leaves the digits of V[X] at I, I + 1 and I + 2 (45_index_memory.md R163). -/
theorem memRead_exec_ldBVx (hs : s.Inv) (h : exec (.ldBVx x) s = .next t) (k : Fin 3) :
    t.memRead (s.addrI k.val) = decimalDigit (s.getV x) k := by
  cases h
  have hs₁ := State.memWrite_wf hs (s.addrI 0) (hundredsDigit (s.getV x))
  have hs₂ := State.memWrite_wf hs₁ (s.addrI 1) (tensDigit (s.getV x))
  simp (disch := omega) only [State.setPc_memRead, State.memRead_memWrite hs₂, State.memRead_memWrite hs₁,
    State.memRead_memWrite hs, State.addrI_mod_eq_iff]
  match k with
  | 0 | 1 | 2 => rfl

end Stores

/-! ## The obligation of 20_memory.md -/

/-- Settles O49: the byte fetched is the byte at its address, and that is the byte the instruction stored there. -/
theorem storesAreSeenByTheNextFetch : Obligations.StoresAreSeenByTheNextFetch := by
  refine ⟨fun x k s t a hs h hk => ?registers, fun x k s t a hs h => ?digits⟩
  case registers =>
    have stored := memRead_exec_ldMemVx hs h hk
    exact ⟨fun ha => (highByte_fetchWord_setPc ha).trans stored, fun ha => (lowByte_fetchWord_setPc ha).trans stored⟩
  case digits =>
    have stored := memRead_exec_ldBVx hs h k
    rw [← toNat_decimalDigit, ← stored]
    exact ⟨fun ha => congrArg _ (highByte_fetchWord_setPc ha), fun ha => congrArg _ (lowByte_fetchWord_setPc ha)⟩

end Sys2Proof.Machine

/-! # The second level of the dispatch

Classes 0x8, 0xE and 0xF look at N or KK after the class: `decodeWord` there is the decoder of the class, which answers
each listed value with its instruction and every other value with UnknownOpcode. -/

namespace Sys2Proof

section SecondLevel

variable {w : Word}

/-! ## The class selects its own decoder -/

theorem decodeWord_of_class8 (hc : fieldC w = 0x8) : decodeWord w = decodeClass8 w := by
  simp [decodeWord, hc]

theorem decodeWord_of_classE (hc : fieldC w = 0xE) : decodeWord w = decodeClassE w := by
  simp [decodeWord, hc]

theorem decodeWord_of_classF (hc : fieldC w = 0xF) : decodeWord w = decodeClassF w := by
  simp [decodeWord, hc]

/-! ## The values that select no instruction: every arm but the last is for a listed value -/

/-- 30_encoding.md R76. -/
theorem decodeClass8_of_unlisted (hn : fieldN w ∈ [0x8#4, 0x9#4, 0xA#4, 0xB#4, 0xC#4, 0xD#4, 0xF#4]) :
    decodeClass8 w = .error (.unknownOpcode w) := by
  unfold decodeClass8
  split
  case h_10 => rfl
  all_goals
    rename_i listed
    simp [← BitVec.toNat_inj, listed] at hn

/-- 30_encoding.md R77. -/
theorem decodeClassE_of_unlisted (hkk : fieldKK w ∉ [0x9E#8, 0xA1#8]) :
    decodeClassE w = .error (.unknownOpcode w) := by
  unfold decodeClassE
  split
  case h_3 => rfl
  all_goals
    rename_i listed
    simp [← BitVec.toNat_inj, listed] at hkk

/-- 30_encoding.md R78. -/
theorem decodeClassF_of_unlisted
    (hkk : fieldKK w ∉ [0x07#8, 0x0A#8, 0x15#8, 0x18#8, 0x1E#8, 0x29#8, 0x33#8, 0x55#8, 0x65#8]) :
    decodeClassF w = .error (.unknownOpcode w) := by
  unfold decodeClassF
  split
  case h_10 => rfl
  all_goals
    rename_i listed
    simp [← BitVec.toNat_inj, listed] at hkk

end SecondLevel

/-! ## The obligation of 30_encoding.md -/

/-- Settles O6: a listed value picks its arm of the class's decoder, and any other value picks the last arm. -/
theorem secondLevelDispatch : Obligations.SecondLevelDispatch := by
  refine ⟨fun w hc => ?class8, fun w hc => ?classE, fun w hc => ?classF⟩
  case class8 =>
    rw [decodeWord_of_class8 hc]
    refine ⟨?_, ?_, ?_, ?_, ?_, ?_, ?_, ?_, ?_, decodeClass8_of_unlisted⟩
    all_goals
      intro listed
      simp [decodeClass8, listed]
  case classE =>
    rw [decodeWord_of_classE hc]
    refine ⟨?_, ?_, decodeClassE_of_unlisted⟩
    all_goals
      intro listed
      simp [decodeClassE, listed]
  case classF =>
    rw [decodeWord_of_classF hc]
    refine ⟨?_, ?_, ?_, ?_, ?_, ?_, ?_, ?_, ?_, decodeClassF_of_unlisted⟩
    all_goals
      intro listed
      simp [decodeClassF, listed]

end Sys2Proof

/-! # The cycle: what a step can do, and where it reports an error

A step settles the environment's turn, then raises UnknownOpcode or executes the decoded instruction with ERR.code at 0.
`failedCheck` names the code each instruction's own check raises; the frame of the instruction then gives the rest. -/

namespace Sys2Proof.Machine

open Sys2Proof

@[simp] theorem State.settle_sp (s : State) : s.settle.sp = s.sp := by rw [State.settle_eq]

section Outcomes

variable {i : Instr} {s t : State}

/-- The two branches of a step (40_cycle.md R90). -/
theorem step_cases (h : step s = .next t) :
    (∃ e, decodeWord s.settle.fetchWord = .error e ∧ t = s.settle.raise .unknownOpcode) ∨
      ∃ i, decodeWord s.settle.fetchWord = .ok i ∧ exec i s.settle.clearErr = .next t := by
  simp only [step, cycle] at h
  split at h
  case h_1 i hd => exact .inr ⟨i, hd, h⟩
  case h_2 e hd =>
    cases h
    exact .inl ⟨e, hd, rfl⟩

/-! ## The checks of the instructions (60_exceptions.md R170) -/

/-- The code that an instruction raises in a state, `none` where its check passes or it has none (`exec_err_cases`). -/
def failedCheck (s : State) : Instr → ErrCode
  | .call _ => if s.sp.val = 16 then .stackOverflow else .none
  | .ret => if s.sp.val = 0 then .stackUnderflow else .none
  | .ldFVx x => if (s.getV x).toNat > 15 then .outOfBoundsFontIndex else .none
  | _ => .none

theorem failedCheck_ne_unknownOpcode (s : State) (i : Instr) : failedCheck s i ≠ .unknownOpcode := by
  cases i <;> simp [failedCheck, ite_eq_iff]

theorem failedCheck_eq_stackOverflow :
    failedCheck s i = .stackOverflow ↔ ∃ nnn, i = .call nnn ∧ s.sp.val = 16 := by
  cases i <;> simp [failedCheck, ite_eq_iff]

theorem failedCheck_eq_stackUnderflow : failedCheck s i = .stackUnderflow ↔ i = .ret ∧ s.sp.val = 0 := by
  cases i <;> simp [failedCheck, ite_eq_iff]

theorem failedCheck_eq_outOfBoundsFontIndex :
    failedCheck s i = .outOfBoundsFontIndex ↔ ∃ x, i = .ldFVx x ∧ (s.getV x).toNat > 15 := by
  cases i <;> simp [failedCheck, ite_eq_iff]

/-- Only an instruction that can write ERR has a check. -/
theorem failedCheck_eq_none (h : .err ∉ writtenParts i) : failedCheck s i = .none := by
  cases i <;> simp_all [failedCheck, writtenParts]

/-- An instruction leaves ERR, or its check failed and it only raises the code of that check. -/
theorem exec_err_cases (h : exec i s = .next t) :
    (failedCheck s i = .none ∧ t.err = s.err) ∨ (failedCheck s i ≠ .none ∧ t = s.raise (failedCheck s i)) := by
  by_cases hw : .err ∈ writtenParts i
  · rcases err_mem_writtenParts.1 hw with rfl | ⟨nnn, rfl⟩ | ⟨x, rfl⟩
    · rcases exec_ret_cases h with ⟨hsp, rfl⟩ | ⟨hsp, rfl⟩
      · exact .inl ⟨if_neg hsp.ne', rfl⟩
      · exact .inr (by simp [failedCheck, hsp])
    · rcases exec_call_cases h with ⟨hsp, rfl⟩ | ⟨hsp, rfl⟩
      · exact .inl ⟨if_neg hsp.ne, rfl⟩
      · exact .inr (by simp [failedCheck, hsp])
    · rcases exec_ldFVx_cases h with ⟨hv, rfl⟩ | ⟨hv, rfl⟩
      · exact .inr (by simp [failedCheck, hv])
      · exact .inl ⟨if_neg hv.not_gt, rfl⟩
  · exact .inl ⟨failedCheck_eq_none hw, exec_sameBut h .err hw⟩

/-- With ERR.code at 0 before it, an instruction leaves the code of its check there. -/
theorem exec_clearErr_code (h : exec i s.clearErr = .next t) : t.err.code = failedCheck s.clearErr i := by
  rcases exec_err_cases h with ⟨passed, kept⟩ | ⟨-, rfl⟩
  · rw [passed, kept, State.clearErr_err]
  · rfl

/-- A step that reports an error is the entry of that error and nothing else (60_exceptions.md R172). -/
theorem step_raises (h : step s = .next t) (bad : ¬ t.good) : ∃ c, t = s.settle.raise c := by
  rcases step_cases h with ⟨e, -, rfl⟩ | ⟨i, -, hx⟩
  · exact ⟨_, rfl⟩
  · rcases exec_err_cases hx with ⟨passed, -⟩ | ⟨-, rfl⟩
    · exact absurd ((exec_clearErr_code hx).trans passed) bad
    · exact ⟨_, rfl⟩

/-! ## The response of a step (10_state.md R41) -/

theorem stepResponse_of_good (h : t.good) : t.stepResponse = .ok := by
  simp [State.stepResponse, h]

theorem stepResponse_of_not_good (h : ¬ t.good) : t.stepResponse = .error t.err.code t.err.pc t.err.word := by
  unfold State.stepResponse
  split <;> simp_all

/-- Raising an error is `Raised`. -/
theorem raised_raise (s : State) (c : ErrCode) : Raised c s (s.raise c) := ⟨rfl, sameBut_raise s c⟩

/-! ## The timers in an instruction (40_cycle.md R97) -/

theorem exec_dt (h : exec i s = .next t) : t.dt = s.dt ∨ ∃ x, i = .ldDtVx x ∧ t.dt = s.getV x := by
  refine or_iff_not_imp_left.2 fun changed => ?_
  obtain ⟨x, rfl⟩ := dt_mem_writtenParts.1 (not_imp_comm.1 (exec_sameBut h .dt) changed)
  cases h
  exact ⟨x, rfl, rfl⟩

theorem exec_st (h : exec i s = .next t) : t.st = s.st ∨ ∃ x, i = .ldStVx x ∧ t.st = s.getV x := by
  refine or_iff_not_imp_left.2 fun changed => ?_
  obtain ⟨x, rfl⟩ := st_mem_writtenParts.1 (not_imp_comm.1 (exec_sameBut h .st) changed)
  cases h
  exact ⟨x, rfl, rfl⟩

end Outcomes

/-! ## The obligations of 40_cycle.md -/

/-- Settles O11: ERR.code after a step is UnknownOpcode or the decoded instruction's `failedCheck`, and where it is not 0
the step is a `raise` of the settled state. -/
theorem errorsAreExactAndPrecise : Obligations.ErrorsAreExactAndPrecise := by
  intro s t h
  refine ⟨?unknown, ?overflow, ?underflow, ?font, fun bad => ?raised, stepResponse_of_good⟩
  case unknown | overflow | underflow | font =>
    rcases step_cases h with ⟨e, hd, rfl⟩ | ⟨i, hd, hx⟩
    · simp [hd]
    · simp [hd, exec_clearErr_code hx, failedCheck_ne_unknownOpcode, failedCheck_eq_stackOverflow,
        failedCheck_eq_stackUnderflow, failedCheck_eq_outOfBoundsFontIndex]
  case raised =>
    have response := stepResponse_of_not_good bad
    obtain ⟨c, rfl⟩ := step_raises h bad
    exact ⟨raised_raise _ c, response⟩

/-- Settles O18: an unknown word writes ERR alone, and an instruction leaves a timer or is the load of that timer. -/
theorem stepsDoNotTickTimers : Obligations.StepsDoNotTickTimers := by
  intro s t h
  rcases step_cases h with ⟨e, hd, rfl⟩ | ⟨i, hd, hx⟩
  case inl => exact ⟨.inl rfl, .inl rfl⟩
  case inr =>
    refine ⟨(exec_dt hx).imp_right ?_, (exec_st hx).imp_right ?_⟩
    all_goals
      rintro ⟨x, rfl, loaded⟩
      exact ⟨x, hd, loaded.trans (s.settle_getV x)⟩

end Sys2Proof.Machine

/-! # Control flow: the target of a jump, the skip, and the call stack

Each of these instructions ends in one `setPc`. CALL and RET also move one entry of the call stack, or raise the error of
their check; which of the two they do is an equation for each side of the check. -/

namespace Sys2Proof

section ControlFlowClasses

variable {w : Word}

/-! ## The one-to-one classes of control flow (30_encoding.md R73) -/

theorem decodeWord_of_class1 (hc : fieldC w = 0x1) : decodeWord w = .ok (.jp (fieldNNN w)) := by
  simp [decodeWord, hc]

theorem decodeWord_of_class2 (hc : fieldC w = 0x2) : decodeWord w = .ok (.call (fieldNNN w)) := by
  simp [decodeWord, hc]

theorem decodeWord_of_class3 (hc : fieldC w = 0x3) : decodeWord w = .ok (.se (fieldX w) (fieldKK w)) := by
  simp [decodeWord, hc]

theorem decodeWord_of_class4 (hc : fieldC w = 0x4) : decodeWord w = .ok (.sne (fieldX w) (fieldKK w)) := by
  simp [decodeWord, hc]

theorem decodeWord_of_classB (hc : fieldC w = 0xB) : decodeWord w = .ok (.jpV0 (fieldNNN w)) := by
  simp [decodeWord, hc]

end ControlFlowClasses

end Sys2Proof

namespace Sys2Proof.Machine

open Sys2Proof

/-! ## Zero extension keeps the number -/

@[simp] theorem toNat_zextAddr (nnn : Addr12) : (zextAddr nnn).toNat = nnn.toNat :=
  BitVec.toNat_setWidth_of_le (by decide)

@[simp] theorem toNat_zextByte (b : Byte) : (zextByte b).toNat = b.toNat :=
  BitVec.toNat_setWidth_of_le (by decide)

/-- The target of JP V0 does not wrap: it is at most 0xFFF + 0xFF (41_control_flow.md R109). -/
theorem toNat_zextAddr_add_zextByte (nnn : Addr12) (b : Byte) :
    (zextAddr nnn + zextByte b).toNat = nnn.toNat + b.toNat := by
  have hn := nnn.isLt
  have hb := b.isLt
  rw [BitVec.toNat_add, toNat_zextAddr, toNat_zextByte, Nat.mod_eq_of_lt (by omega)]

section ControlFlow

variable (s : State)

/-! ## The relative updates of PC (40_cycle.md R92) -/

theorem pcBy_advance : PcBy 2 s s.advance := BitVec.toNat_add s.pc 2#16

theorem pcBy_skipWhen (c : Bool) : PcBy (if c then 4 else 2) s (s.skipWhen c) := by
  cases c with
  | false => exact pcBy_advance s
  | true => exact BitVec.toNat_add s.pc 4#16

/-! ## The call stack -/

/-- The entries after a push: Stack[SP] is the word pushed, and the others stay (41_control_flow.md R104). -/
theorem getElem_push_stack (w : Word) (h : s.sp.val < 16) (k : Fin 16) :
    (s.push w h).stack[k] = if k.val = s.sp.val then w else s.stack[k] := by
  simp only [State.push_stack, Fin.getElem_fin, Vector.getElem_set, eq_comm]

/-- The entry a RET pops is the one below SP (41_control_flow.md R102). -/
theorem top_eq_getElem (h : 0 < s.sp.val) {k : Fin 16} (hk : s.sp.val = k.val + 1) : s.top h = s.stack[k] := by
  simp only [State.top, hk, Nat.add_sub_cancel, Fin.getElem_fin]

/-! ## CALL and RET on each side of their check -/

theorem exec_call_of_lt (nnn : Addr12) (h : s.sp.val < 16) :
    exec (.call nnn) s = .next ((s.push s.pc h).setPc (zextAddr nnn)) := dif_pos h

theorem exec_call_of_full (nnn : Addr12) (h : s.sp.val = 16) : exec (.call nnn) s = .next (s.raise .stackOverflow) :=
  dif_neg h.not_lt

theorem exec_ret_of_pos (h : 0 < s.sp.val) : exec .ret s = .next (s.pop.setPc (s.top h + 2#16)) := dif_pos h

theorem exec_ret_of_empty (h : s.sp.val = 0) : exec .ret s = .next (s.raise .stackUnderflow) := dif_neg h.not_gt

end ControlFlow

/-! ## The obligations of 41_control_flow.md -/

/-- Settles O21: both jumps are one `setPc`, whose target is the number of the address, with V[0] added without wrap. -/
theorem jumpsSetPcAbsolutely : Obligations.JumpsSetPcAbsolutely :=
  ⟨fun _ => decodeWord_of_class1, fun _ => decodeWord_of_classB,
    fun nnn s => ⟨_, rfl, toNat_zextAddr nnn, sameBut_setPc s _⟩,
    fun nnn s => ⟨_, rfl, toNat_zextAddr_add_zextByte nnn (s.getV 0#4), sameBut_setPc s _⟩⟩

/-- Settles O23: below 16 entries a CALL is a push and a jump, and at 16 it only raises the error. -/
theorem callPushesItsAddress : Obligations.CallPushesItsAddress := by
  refine ⟨fun _ => decodeWord_of_class2, fun nnn s hsp => ?push, fun nnn s hsp => ?full⟩
  case push =>
    have frame := (sameBut_push s s.pc hsp).trans (sameBut_setPc _ (zextAddr nnn))
    exact ⟨_, exec_call_of_lt s nnn hsp, rfl, getElem_push_stack s s.pc hsp, toNat_zextAddr nnn, frame.mono (by simp)⟩
  case full => exact ⟨_, exec_call_of_full s nnn hsp, raised_raise s _⟩

/-- Settles O24: with an entry on the stack a RET is a pop and a jump past it, and with none it only raises the error. -/
theorem retReturnsPastTheCall : Obligations.RetReturnsPastTheCall := by
  refine ⟨rfl, fun s k hsp => ?pop, fun s hsp => ?empty⟩
  case pop =>
    have hpos : 0 < s.sp.val := hsp ▸ k.val.succ_pos
    have frame := (sameBut_pop s).trans (sameBut_setPc _ (s.top hpos + 2#16))
    refine ⟨_, exec_ret_of_pos s hpos, ?lowered, rfl, ?target, frame.mono (by simp)⟩
    case lowered => simp [hsp]
    case target =>
      rw [State.setPc_pc, top_eq_getElem s hpos hsp]
      exact BitVec.toNat_add _ _
  case empty => exact ⟨_, exec_ret_of_empty s hsp, raised_raise s _⟩

/-- Settles O26: SE and SNE are `skipWhen` on the test of V[X] against the byte. -/
theorem immediateSkips : Obligations.ImmediateSkips := by
  refine ⟨fun _ => decodeWord_of_class3, fun _ => decodeWord_of_class4,
    fun x kk s => ⟨_, rfl, ?equal, sameBut_setPc s _⟩, fun x kk s => ⟨_, rfl, ?unequal, sameBut_setPc s _⟩⟩
  case equal => simpa only [beq_iff_eq] using pcBy_skipWhen s (s.getV x == kk)
  case unequal => simpa only [bne_iff_ne] using pcBy_skipWhen s (s.getV x != kk)

end Sys2Proof.Machine

/-! # Loads and the ALU: the byte written to V[X], and the flag written to VF after it

An instruction without a flag is one `setV` and the advance of PC; one with a flag is `finishFlagged`. Each ending has one
frame, and the value read back at V[X] or VF is then a fact of byte arithmetic. -/

namespace Sys2Proof

section LoadAndAddClasses

variable {w : Word}

/-! ## The one-to-one classes of the loads and of ADD (30_encoding.md R73), and the words of class 0x8 (R76) -/

theorem decodeWord_of_class6 (hc : fieldC w = 0x6) : decodeWord w = .ok (.ld (fieldX w) (fieldKK w)) := by
  simp [decodeWord, hc]

theorem decodeWord_of_class7 (hc : fieldC w = 0x7) : decodeWord w = .ok (.add (fieldX w) (fieldKK w)) := by
  simp [decodeWord, hc]

theorem decodeWord_of_classA (hc : fieldC w = 0xA) : decodeWord w = .ok (.ldI (fieldNNN w)) := by
  simp [decodeWord, hc]

theorem decodeWord_wordXYN_class8 (x y : RegIx) (n : Nibble) :
    decodeWord (wordXYN 8#4 x y n) = decodeClass8 (wordXYN 8#4 x y n) :=
  decodeWord_of_class8 (fieldC_wordXYN 8#4 x y n)

end LoadAndAddClasses

end Sys2Proof

namespace Sys2Proof.Machine

open Sys2Proof

/-! ## The flags as numbers (42_load_alu.md R127 to R131) -/

theorem toNat_flagByte (c : Bool) : (flagByte c).toNat = c.toNat := by
  cases c <;> rfl

theorem toNat_flagByte_decide (p : Prop) [Decidable p] : (flagByte (decide p)).toNat = if p then 1 else 0 := by
  by_cases hp : p <;> simp [flagByte, hp]

theorem toNat_carryFlag (a b : Byte) : (carryFlag a b).toNat = if a.toNat + b.toNat > 255 then 1 else 0 :=
  toNat_flagByte_decide _

theorem toNat_notBorrowFlag (a b : Byte) : (notBorrowFlag a b).toNat = if a.toNat ≥ b.toNat then 1 else 0 :=
  toNat_flagByte_decide _

theorem toNat_shrFlag (a : Byte) : (shrFlag a).toNat = a.toNat % 2 := by
  rw [shrFlag, toNat_flagByte, BitVec.getLsbD, Nat.toNat_testBit, pow_zero, Nat.div_one]

theorem toNat_shlFlag (a : Byte) : (shlFlag a).toNat = a.toNat / 128 := by
  have ha := a.isLt
  rw [shlFlag, toNat_flagByte, BitVec.getLsbD, Nat.toNat_testBit]
  omega

/-! ## The results as numbers -/

/-- A difference of bytes is the integer difference mod 256, with or without a borrow (42_load_alu.md R128, R130). -/
theorem toNat_byte_sub (a b : Byte) : ((a - b).toNat : Int) = (a.toNat - b.toNat : Int) % 256 := by
  have hb := b.isLt
  rw [BitVec.toNat_sub]
  omega

theorem toNat_byte_shiftRight_one (a : Byte) : (a >>> 1).toNat = a.toNat / 2 := by
  rw [BitVec.toNat_ushiftRight, Nat.shiftRight_one]

theorem toNat_byte_shiftLeft_one (a : Byte) : (a <<< 1).toNat = 2 * a.toNat % 256 := by
  rw [BitVec.toNat_shiftLeft, Nat.shiftLeft_eq, pow_one, Nat.mul_comm]

section Endings

variable (s : State) (x : RegIx)

/-! ## The ending without a flag -/

theorem getV_setV_advance (b : Byte) : (s.setV x b).advance.getV x = b := State.getV_setV_self s x b

theorem frame_setV_advance (b : Byte) :
    RegsBut [x] s (s.setV x b).advance ∧ PcBy 2 s (s.setV x b).advance ∧
      SameBut [.regs, .pc] s (s.setV x b).advance :=
  ⟨regsBut_setV s x b, pcBy_advance (s.setV x b), (sameBut_setV s x b).trans (sameBut_setPc _ _)⟩

/-! ## The ending with a flag: VF is written last (40_cycle.md R95) -/

theorem getV_finishFlagged_of_ne {x : RegIx} (hx : x ≠ 0xF#4) (result flag : Byte) :
    (s.finishFlagged x result flag).getV x = result :=
  (State.getV_setV_of_ne _ hx flag).trans (State.getV_setV_self s x result)

theorem getV_finishFlagged_flag (result flag : Byte) : (s.finishFlagged x result flag).getV 0xF#4 = flag :=
  State.getV_setV_self _ 0xF#4 flag

theorem frame_finishFlagged (result flag : Byte) :
    RegsBut [x, 0xF#4] s (s.finishFlagged x result flag) ∧ PcBy 2 s (s.finishFlagged x result flag) ∧
      SameBut [.regs, .pc] s (s.finishFlagged x result flag) :=
  ⟨regsBut_finishFlagged s x result flag, pcBy_advance ((s.setV x result).setVF flag),
    sameBut_finishFlagged s x result flag⟩

end Endings

/-! ## The obligations of 42_load_alu.md -/

/-- Settles O28: LD and ADD write V[X] alone, ADD with the sum of the two bytes. -/
theorem immediateLoadAndAdd : Obligations.ImmediateLoadAndAdd := by
  refine ⟨fun _ => decodeWord_of_class6, fun _ => decodeWord_of_class7,
    fun x kk s => ⟨_, rfl, getV_setV_advance s x kk, frame_setV_advance s x kk⟩,
    fun x kk s => ⟨_, rfl, ?sum, frame_setV_advance s x _⟩⟩
  case sum => rw [getV_setV_advance, BitVec.toNat_add]

/-- Settles O29: the four write V[X] alone, and each bit of the result is the operation on the bits of the operands. -/
theorem registerLogic : Obligations.RegisterLogic := by
  refine ⟨fun x y => ?decodes, fun x y s =>
    ⟨⟨_, rfl, getV_setV_advance s x _, frame_setV_advance s x _⟩, ⟨_, rfl, fun i => ?or, frame_setV_advance s x _⟩,
      ⟨_, rfl, fun i => ?and, frame_setV_advance s x _⟩, ⟨_, rfl, fun i => ?xor, frame_setV_advance s x _⟩⟩⟩
  case decodes => simp [decodeWord_wordXYN_class8, decodeClass8]
  case or => rw [getV_setV_advance, BitVec.getLsbD_or]
  case and => rw [getV_setV_advance, BitVec.getLsbD_and]
  case xor => rw [getV_setV_advance, BitVec.getLsbD_xor]

/-- Settles O30: V[X] gets the sum, and the carry then overwrites VF. -/
theorem addRegSumAndCarry : Obligations.AddRegSumAndCarry := by
  refine ⟨fun x y => ?decodes, fun x y s => ⟨_, rfl, fun hx => ?sum, ?carry, frame_finishFlagged s x _ _⟩⟩
  case decodes => simp [decodeWord_wordXYN_class8, decodeClass8]
  case sum => rw [getV_finishFlagged_of_ne s hx, BitVec.toNat_add]
  case carry => rw [getV_finishFlagged_flag, toNat_carryFlag]

/-- Settles O31: V[X] gets the difference, and NOT borrow of the operands as they were then overwrites VF. -/
theorem subtractionsAndNotBorrow : Obligations.SubtractionsAndNotBorrow := by
  refine ⟨fun x y => ?decodes,
    fun x y s => ⟨_, rfl, fun hx => ?sub, ?subFlag, frame_finishFlagged s x _ _⟩,
    fun x y s => ⟨_, rfl, fun hx => ?subn, ?subnFlag, frame_finishFlagged s x _ _⟩⟩
  case decodes => simp [decodeWord_wordXYN_class8, decodeClass8]
  case sub | subn => rw [getV_finishFlagged_of_ne s hx, toNat_byte_sub]
  case subFlag | subnFlag => rw [getV_finishFlagged_flag, toNat_notBorrowFlag]

/-- Settles O32: V[X] gets its old value shifted, and the bit shifted out then overwrites VF. -/
theorem shiftsAndShiftedOutBit : Obligations.ShiftsAndShiftedOutBit := by
  refine ⟨fun x y => ?decodes,
    fun x y s => ⟨_, rfl, fun hx => ?shr, ?shrFlag, frame_finishFlagged s x _ _⟩,
    fun x y s => ⟨_, rfl, fun hx => ?shl, ?shlFlag, frame_finishFlagged s x _ _⟩⟩
  case decodes => simp [decodeWord_wordXYN_class8, decodeClass8]
  case shr => rw [getV_finishFlagged_of_ne s hx, toNat_byte_shiftRight_one]
  case shrFlag => rw [getV_finishFlagged_flag, toNat_shrFlag]
  case shl => rw [getV_finishFlagged_of_ne s hx, toNat_byte_shiftLeft_one]
  case shlFlag => rw [getV_finishFlagged_flag, toNat_shlFlag]

/-- Settles O33: LD I is one `setI`, of the number of the address, and the advance. -/
theorem loadIndexImmediate : Obligations.LoadIndexImmediate :=
  ⟨fun _ => decodeWord_of_classA, fun nnn s =>
    ⟨_, rfl, toNat_zextAddr nnn, pcBy_advance (s.setI _), (sameBut_setI s _).trans (sameBut_setPc _ _)⟩⟩

end Sys2Proof.Machine

/-! # The display: which pixels a draw changes, and what VF says of them

Both instructions write the whole framebuffer by one `setFb`, and end in the advance of PC. CLS writes `clear`; DRW
writes the canvas of the drawing loop, then its collision to VF. -/

namespace Sys2Proof.Machine

open Sys2Proof

/-! ## The drawing loop -/

section DrawingLoop

variable (sprite : Nat → Byte) (x0 y0 : Nat) {n : Nat} (hn : n ≤ 32)

include hn

/-- The pixels that differ after the drawing loop are the covered ones (43_display.md R142, R144). -/
theorem pixel_drawRows_ne_iff_covers (c : Canvas) (px : Fin 64) (py : Fin 32) :
    (Canvas.drawRows sprite x0 y0 n c).fb.pixel px py ≠ c.fb.pixel px py ↔ Covers sprite x0 y0 n px py :=
  Bool.eq_not.symm.trans ((drawRows_spec sprite x0 y0 hn c).1 px py)

/-- A draw that starts without a collision ends with one exactly when a covered pixel was 1 (43_display.md R143). -/
theorem hit_drawRows_iff_exists_covered (fb : Framebuffer) :
    (Canvas.drawRows sprite x0 y0 n { fb := fb, hit := false }).hit = true ↔
      ∃ px py, fb.pixel px py = true ∧ Covers sprite x0 y0 n px py := by
  have spec := (drawRows_spec sprite x0 y0 hn { fb := fb, hit := false }).2
  simpa only [Bool.false_eq_true, false_or, and_comm] using spec

end DrawingLoop

/-- A flag byte is 1 where what it stands for holds, and 0 where it does not. -/
theorem flagByte_one_or_zero {c : Bool} {p : Prop} (h : c = true ↔ p) :
    (flagByte c = 1 ∧ p) ∨ (flagByte c = 0 ∧ ¬ p) := by
  cases c with
  | true => exact .inl ⟨rfl, h.1 rfl⟩
  | false => exact .inr ⟨rfl, fun hp => Bool.false_ne_true (h.2 hp)⟩

/-! ## The obligations of 43_display.md -/

/-- Settles O35: CLS is one `setFb`, of the cleared framebuffer, and the advance. -/
theorem clsClearsEveryPixel : Obligations.ClsClearsEveryPixel :=
  ⟨rfl, fun s => ⟨_, rfl, Framebuffer.pixel_clear, pcBy_advance (s.setFb _), exec_sameBut (i := .cls) rfl⟩⟩

/-- Settles O36: a sprite has at most 15 rows, so the loop inverts each covered pixel once, and the collision it finds
is the byte written to VF; the loop's origin and base are those of the state before. -/
theorem drwXorsTheSpriteWithWrap : Obligations.DrwXorsTheSpriteWithWrap := by
  intro x y n s
  have rows : n.toNat ≤ 32 := by omega
  refine ⟨_, rfl, pixel_drawRows_ne_iff_covers _ _ _ rows _, ?collision, exec_regsBut (i := .drw x y n) rfl,
    pcBy_advance ((s.setFb _).setVF _), (exec_sameBut (i := .drw x y n) rfl).mono (by simp [writtenParts])⟩
  case collision =>
    rw [State.setPc_getV, State.getV_setV_self]
    have flag := flagByte_one_or_zero (hit_drawRows_iff_exists_covered
      (fun r => s.memRead (s.addrI r)) (s.getV x).toNat (s.getV y).toNat rows s.fb)
    simpa only [State.addrI, not_exists, not_and] using flag

end Sys2Proof.Machine

/-! # The timer moves: DT to V[X], and V[X] to DT or ST

Each is one update, `setV`, `setDt` or `setSt`, and the advance of PC. -/

namespace Sys2Proof

/-- A word of class 0xF is decoded by its low byte (30_encoding.md R78). -/
theorem decodeWord_wordXKK_classF (x : RegIx) (kk : Byte) :
    decodeWord (wordXKK 0xF#4 x kk) = decodeClassF (wordXKK 0xF#4 x kk) :=
  decodeWord_of_classF (fieldC_wordXKK 0xF#4 x kk)

end Sys2Proof

namespace Sys2Proof.Machine

open Sys2Proof

/-! ## The obligation of 44_input_timer.md -/

/-- Settles O40: each move is one write of the moved byte and the advance, and `sound_active` is read off the ST written. -/
theorem timerMoves : Obligations.TimerMoves := by
  refine ⟨fun x => ?decodes, fun x s => ⟨_, rfl, getV_setV_advance s x s.dt, frame_setV_advance s x s.dt⟩,
    fun x s => ⟨_, rfl, rfl, pcBy_advance (s.setDt _), exec_sameBut (i := .ldDtVx x) rfl⟩,
    fun x s => ⟨_, rfl, rfl, soundActive_eq_true_iff _, pcBy_advance (s.setSt _), exec_sameBut (i := .ldStVx x) rfl⟩⟩
  case decodes => simp [decodeWord_wordXKK_classF, decodeClassF]

end Sys2Proof.Machine

/-! # The memory transfers through I: the glyph address, the decimal digits, and the two register blocks

Each meaning updates I, memory or the registers alone and ends in the advance of PC; LD F,VX first checks V[X]. What the
updates leave to read stands with `setI`, `storeRegs`, `loadRegs` and the storing instructions above. -/

namespace Sys2Proof.Machine

open Sys2Proof

section Transfers

variable {s t : State} {x : RegIx}

/-! ## The advance of PC at the end of a transfer -/

/-- PC moves by 2 when an update that leaves it alone comes before the advance (40_cycle.md R92). -/
theorem pcBy_advance_of_sameBut {ps : List Part} (h : SameBut ps s t) (hpc : .pc ∉ ps) :
    PcBy 2 s t.advance := by
  have same : t.pc = s.pc := h .pc hpc
  rw [PcBy, ← same]
  exact pcBy_advance t

/-! ## LD F,VX on each side of its check (45_index_memory.md R162) -/

theorem exec_ldFVx_of_le (h : (s.getV x).toNat ≤ 15) :
    exec (.ldFVx x) s = .next (s.setI (zextByte (s.getV x) * 5#16)).advance := if_neg h.not_gt

theorem exec_ldFVx_of_gt (h : (s.getV x).toNat > 15) :
    exec (.ldFVx x) s = .next (s.raise .outOfBoundsFontIndex) := if_pos h

/-- Five times a byte fits in I, so the glyph's address does not wrap. -/
theorem toNat_zextByte_mul_five (b : Byte) : (zextByte b * 5#16).toNat = b.toNat * 5 := by
  have hb := b.isLt
  rw [BitVec.toNat_mul, toNat_zextByte, BitVec.toNat_ofNat]
  omega

/-! ## What LD B,VX and LD VX,[I] leave to read -/

/-- The byte that LD B,VX leaves at I + k, as a number (45_index_memory.md R163). -/
theorem toNat_memRead_exec_ldBVx (hs : s.Inv) (h : exec (.ldBVx x) s = .next t) (k : Fin 3) :
    (t.memRead (s.addrI k.val)).toNat = (s.getV x).toNat / 10 ^ (2 - k.val) % 10 := by
  rw [memRead_exec_ldBVx hs h, toNat_decimalDigit]

/-- LD VX,[I] leaves the byte at I + k in V[k], for k up to X, and every other register as it was (45_index_memory.md
R165). -/
theorem getV_exec_ldVxMem (h : exec (.ldVxMem x) s = .next t) (k : RegIx) :
    t.getV k = if k.toNat ≤ x.toNat then s.memRead (s.addrI k.toNat) else s.getV k := by
  cases h
  simp only [State.setPc_getV, State.getV_loadRegs s (Nat.succ_le_of_lt x.isLt), Nat.lt_succ_iff]

end Transfers

/-! ## The obligations of 45_index_memory.md -/

/-- Settles O44: up to 15, I is five times V[X], which fits; above, LD F,VX only raises the error. -/
theorem loadFontAddress : Obligations.LoadFontAddress := by
  refine ⟨fun x => ?decodes, fun x s hv => ?glyph, fun x s hv => ?outOfBounds⟩
  case decodes => simp [decodeWord_wordXKK_classF, decodeClassF]
  case glyph =>
    exact ⟨_, exec_ldFVx_of_le hv, toNat_zextByte_mul_five _, pcBy_advance (s.setI _),
      (sameBut_setI s _).trans (sameBut_setPc _ _)⟩
  case outOfBounds => exact ⟨_, exec_ldFVx_of_gt hv, raised_raise s _⟩

/-- Settles O45: each byte read back is the digit of its place, and the hundreds of a byte are below 10 already. -/
theorem storeDecimalDigits : Obligations.StoreDecimalDigits := by
  refine ⟨fun x => ?decodes, fun x s hs => ?stores⟩
  case decodes => simp [decodeWord_wordXKK_classF, decodeClassF]
  case stores =>
    have digit := toNat_memRead_exec_ldBVx (x := x) hs rfl
    have hundreds : (s.getV x).toNat / 100 < 10 := by omega
    refine ⟨_, rfl, (digit 0).trans (Nat.mod_eq_of_lt hundreds), digit 1, (digit 2).trans ?ones,
      exec_ldBVx_bytesBut (x := x) rfl, pcBy_advance (((s.memWrite _ _).memWrite _ _).memWrite _ _),
      exec_sameBut (i := .ldBVx x) rfl⟩
    case ones => exact congrArg (· % 10) (Nat.div_one _)

/-- Settles O46: the block store leaves V[k] at I + k for k up to X, and writes memory alone. -/
theorem storeRegisterBlock : Obligations.StoreRegisterBlock := by
  refine ⟨fun x => ?decodes, fun x s hs => ⟨_, rfl, fun k => memRead_exec_ldMemVx hs (x := x) rfl,
    exec_ldMemVx_bytesBut (x := x) rfl, pcBy_advance_of_sameBut (sameBut_storeRegs s _) (by decide),
    exec_sameBut (i := .ldMemVx x) rfl⟩⟩
  case decodes => simp [decodeWord_wordXKK_classF, decodeClassF]

/-- Settles O47: the block load leaves the byte at I + k in V[k] for k up to X, and writes the registers alone. -/
theorem loadRegisterBlock : Obligations.LoadRegisterBlock := by
  refine ⟨fun x => ?decodes, fun x s => ⟨_, rfl, fun k => ?loaded,
    pcBy_advance_of_sameBut (sameBut_loadRegs s _) (by decide), exec_sameBut (i := .ldVxMem x) rfl⟩⟩
  case decodes => simp [decodeWord_wordXKK_classF, decodeClassF]
  case loaded =>
    rw [getV_exec_ldVxMem (x := x) rfl k, ← State.memRead_mod]
    rfl

end Sys2Proof.Machine

/-! # UnknownOpcode: the step that reports a word with no instruction, and the classes that have no such word -/

namespace Sys2Proof

section TotalClasses

variable {w : Word}

/-- Class 0x0 is CLS, RET or SYS, whatever its low bits are (30_encoding.md R74). -/
theorem decodeWord_of_class0 (hc : fieldC w = 0x0) : decodeWord w = .ok (decodeClass0 w) := by
  simp [decodeWord, hc]

/-- Class 0x5 ignores its low nibble (30_encoding.md R75). -/
theorem decodeWord_of_class5 (hc : fieldC w = 0x5) : decodeWord w = .ok (.seReg (fieldX w) (fieldY w)) := by
  simp [decodeWord, hc]

/-- Class 0x9 ignores its low nibble (30_encoding.md R75). -/
theorem decodeWord_of_class9 (hc : fieldC w = 0x9) : decodeWord w = .ok (.sneReg (fieldX w) (fieldY w)) := by
  simp [decodeWord, hc]

end TotalClasses

end Sys2Proof

namespace Sys2Proof.Machine

open Sys2Proof

/-- A word with no instruction ends the step before Execute, in the entry of the error (40_cycle.md R90). -/
theorem step_of_decode_error {s : State} {e : DecodeError} (h : decodeWord s.settle.fetchWord = .error e) :
    step s = .next (s.settle.raise .unknownOpcode) := by
  simp only [step, cycle, h]

/-! ## The obligation of 60_exceptions.md -/

/-- Settles O10: on such a word the step is a `raise` of the settled state, and classes 0x0, 0x5 and 0x9 each have an
instruction for every word. -/
theorem unknownOpcodeIsReportedWithoutEffect : Obligations.UnknownOpcodeIsReportedWithoutEffect := by
  refine ⟨fun s e undecoded => ?reported, fun w total => ?decodes⟩
  case reported =>
    exact ⟨_, step_of_decode_error undecoded, raised_raise _ _, stepResponse_of_not_good ErrCode.noConfusion⟩
  case decodes =>
    simp only [List.mem_cons, List.not_mem_nil, or_false] at total
    rcases total with hc | hc | hc
    · exact ⟨_, decodeWord_of_class0 hc⟩
    · exact ⟨_, decodeWord_of_class5 hc⟩
    · exact ⟨_, decodeWord_of_class9 hc⟩

end Sys2Proof.Machine

/-! # The decoder, the encoder and the opcode table

The class of a word, with N or KK where the class has a second level, fixes the arm of `decodeWord` and the format that
`encode` writes, and a word is its fields put together. So encoding undoes decoding, and decoding undoes encoding.
A row of the opcode table fixes the same fields by its mask. -/

namespace Sys2Proof

section ClassCAndD

variable {w : Word}

theorem decodeWord_of_classC (hc : fieldC w = 0xC) : decodeWord w = .ok (.rnd (fieldX w) (fieldKK w)) := by
  simp [decodeWord, hc]

theorem decodeWord_of_classD (hc : fieldC w = 0xD) : decodeWord w = .ok (.drw (fieldX w) (fieldY w) (fieldN w)) := by
  simp [decodeWord, hc]

end ClassCAndD

/-! ## Class 0x0 -/

/-- The three answers of class 0x0 (30_encoding.md R74). -/
theorem decodeClass0_cases (w : Word) :
    (w = 0x00E0#16 ∧ decodeClass0 w = .cls) ∨ (w = 0x00EE#16 ∧ decodeClass0 w = .ret) ∨
      (w ≠ 0x00E0#16 ∧ w ≠ 0x00EE#16 ∧ decodeClass0 w = .sys (fieldNNN w)) := by
  by_cases hcls : w = 0x00E0#16
  · exact .inl ⟨hcls, if_pos hcls⟩
  · by_cases hret : w = 0x00EE#16
    · exact .inr (.inl ⟨hret, (if_neg hcls).trans (if_pos hret)⟩)
    · exact .inr (.inr ⟨hcls, hret, (if_neg hcls).trans (if_neg hret)⟩)

/-! ## Decoding an encoded instruction -/

/-- Only the two words of CLS and RET in class 0x0 are not SYS (30_encoding.md R74). -/
theorem decodeClass0_wordNNN {nnn : Addr12} (hcls : nnn ≠ 0x0E0#12) (hret : nnn ≠ 0x0EE#12) :
    decodeClass0 (wordNNN 0x0 nnn) = .sys nnn := by
  have not_cls : wordNNN 0x0 nnn ≠ 0x00E0#16 := fun e => hcls ((fieldNNN_wordNNN 0x0 nnn).symm.trans (congrArg fieldNNN e))
  have not_ret : wordNNN 0x0 nnn ≠ 0x00EE#16 := fun e => hret ((fieldNNN_wordNNN 0x0 nnn).symm.trans (congrArg fieldNNN e))
  rw [decodeClass0, if_neg not_cls, if_neg not_ret, fieldNNN_wordNNN]

/-- The fields of the format an instruction is encoded in select its arm of the decoder (30_encoding.md R82). -/
theorem decodeWord_encode {i : Instr} (h : i.wellFormed = true) : decodeWord (encode i) = .ok i := by
  cases i with
  | sys nnn =>
    simp only [Instr.wellFormed, Bool.and_eq_true, bne_iff_ne] at h
    obtain ⟨hcls, hret⟩ := h
    rw [encode, decodeWord_of_class0 (fieldC_wordNNN 0x0 nnn), decodeClass0_wordNNN hcls hret]
  | cls | ret => rfl
  | jp nnn | call nnn | ldI nnn | jpV0 nnn | se x kk | sne x kk | ld x kk | add x kk | rnd x kk | seReg x y | sneReg x y
  | drw x y n => simp [encode, decodeWord]
  | ldReg x y | orReg x y | andReg x y | xorReg x y | addReg x y | sub x y | shr x y | subn x y | shl x y =>
    simp [encode, decodeWord_wordXYN_class8, decodeClass8]
  | skp x | sknp x => simp [encode, decodeWord, decodeClassE]
  | ldVxDt x | ldVxK x | ldDtVx x | ldStVx x | addIVx x | ldFVx x | ldBVx x | ldMemVx x | ldVxMem x =>
    simp [encode, decodeWord_wordXKK_classF, decodeClassF]

/-- Two bytes at the front of a list decode as the word they make (30_encoding.md R70). -/
theorem decode_bytes_of_decodeWord {w : Word} {i : Instr} (h : decodeWord w = .ok i) (rest : List Byte) :
    decode (highByte w :: lowByte w :: rest) = .ok (i, rest) := by
  rw [decode, wordOfBytes_high_low, h]
  rfl

/-- Settles O2: the word decodes by `decodeWord_encode`, and its two bytes make that word again. -/
theorem decodeOfEncode : Obligations.DecodeOfEncode := fun _ wf =>
  have decoded := decodeWord_encode wf
  ⟨decoded, decode_bytes_of_decodeWord decoded⟩

/-! ## Encoding a decoded word -/

section Encoding

variable {w : Word} {i : Instr} {c : BitVec 4}

theorem wordNNN_of_class (hc : fieldC w = c) : wordNNN c (fieldNNN w) = w := hc ▸ wordNNN_fields w

theorem wordXKK_of_class (hc : fieldC w = c) : wordXKK c (fieldX w) (fieldKK w) = w := hc ▸ wordXKK_fields w

theorem wordXYN_of_class (hc : fieldC w = c) : wordXYN c (fieldX w) (fieldY w) (fieldN w) = w := hc ▸ wordXYN_fields w

theorem wordXYN_of_class_nibble {n : Nibble} (hc : fieldC w = c) (hn : fieldN w = n) :
    wordXYN c (fieldX w) (fieldY w) n = w := hn ▸ wordXYN_of_class hc

theorem wordXKK_of_class_byte {kk : Byte} (hc : fieldC w = c) (hkk : fieldKK w = kk) : wordXKK c (fieldX w) kk = w :=
  hkk ▸ wordXKK_of_class hc

theorem encode_decodeClass0 (hc : fieldC w = 0x0) : encode (decodeClass0 w) = w ∧ (decodeClass0 w).wellFormed = true := by
  rcases decodeClass0_cases w with ⟨rfl, answer⟩ | ⟨rfl, answer⟩ | ⟨hcls, hret, answer⟩
  · exact answer ▸ ⟨rfl, rfl⟩
  · exact answer ▸ ⟨rfl, rfl⟩
  · have word : wordNNN 0x0 (fieldNNN w) = w := wordNNN_of_class hc
    rw [answer]
    refine ⟨word, ?_⟩
    simp only [Instr.wellFormed, Bool.and_eq_true, bne_iff_ne]
    exact ⟨fun e => hcls (word.symm.trans (e ▸ rfl)), fun e => hret (word.symm.trans (e ▸ rfl))⟩

theorem encode_decodeClass8 (hc : fieldC w = 0x8) (h : decodeClass8 w = .ok i) : encode i = w ∧ i.wellFormed = true := by
  unfold decodeClass8 at h
  split at h
  case h_10 => cases h
  all_goals
    rename_i hn
    cases h
    exact ⟨wordXYN_of_class_nibble hc (BitVec.eq_of_toNat_eq hn), rfl⟩

theorem encode_decodeClassE (hc : fieldC w = 0xE) (h : decodeClassE w = .ok i) : encode i = w ∧ i.wellFormed = true := by
  unfold decodeClassE at h
  split at h
  case h_3 => cases h
  all_goals
    rename_i hkk
    cases h
    exact ⟨wordXKK_of_class_byte hc (BitVec.eq_of_toNat_eq hkk), rfl⟩

theorem encode_decodeClassF (hc : fieldC w = 0xF) (h : decodeClassF w = .ok i) : encode i = w ∧ i.wellFormed = true := by
  unfold decodeClassF at h
  split at h
  case h_10 => cases h
  all_goals
    rename_i hkk
    cases h
    exact ⟨wordXKK_of_class_byte hc (BitVec.eq_of_toNat_eq hkk), rfl⟩

/-- Clearing the low nibble keeps the other fields. -/
theorem and_nibbleMask (w : Word) : w &&& 0xFFF0#16 = wordXYN (fieldC w) (fieldX w) (fieldY w) 0 := by
  conv_lhs => rw [← wordXYN_fields w]
  apply BitVec.eq_of_getLsbD_eq
  intro i hi
  simp only [wordXYN, BitVec.getLsbD_and, BitVec.getLsbD_append]
  interval_cases i <;> simp

theorem canonicalWord_of_class5 (hc : fieldC w = 0x5) : canonicalWord w = wordXYN 0x5 (fieldX w) (fieldY w) 0 := by
  rw [canonicalWord, if_pos (.inl hc), and_nibbleMask, hc]

theorem canonicalWord_of_class9 (hc : fieldC w = 0x9) : canonicalWord w = wordXYN 0x9 (fieldX w) (fieldY w) 0 := by
  rw [canonicalWord, if_pos (.inr hc), and_nibbleMask, hc]

theorem canonicalWord_of_other (h5 : fieldC w ≠ 0x5) (h9 : fieldC w ≠ 0x9) : canonicalWord w = w :=
  if_neg (not_or.2 ⟨h5, h9⟩)

end Encoding

/-- The class that `decodeWord` leaves to its last arm (30_encoding.md R73). -/
theorem fieldC_eq_F_of_others {w : Word} (h : ∀ c < 15, (fieldC w).toNat ≠ c) : fieldC w = 0xF := by
  have last : ¬ (fieldC w).toNat < 15 := fun hlt => h _ hlt rfl
  exact BitVec.eq_of_toNat_eq (show (fieldC w).toNat = 15 by omega)

/-- Every arm of the decoder reads the fields of its format, and the class fixes the rest of the word
(30_encoding.md R84). -/
theorem encode_decodeWord {w : Word} {i : Instr} (h : decodeWord w = .ok i) :
    encode i = canonicalWord w ∧ i.wellFormed = true := by
  by_cases h5 : fieldC w = 0x5
  · rw [decodeWord_of_class5 h5] at h
    cases h
    exact ⟨(canonicalWord_of_class5 h5).symm, rfl⟩
  by_cases h9 : fieldC w = 0x9
  · rw [decodeWord_of_class9 h9] at h
    cases h
    exact ⟨(canonicalWord_of_class9 h9).symm, rfl⟩
  rw [canonicalWord_of_other h5 h9]
  unfold decodeWord at h
  split at h
  case h_1 hc =>
    cases h
    exact encode_decodeClass0 (BitVec.eq_of_toNat_eq hc)
  case h_2 hc | h_3 hc | h_11 hc | h_12 hc =>
    cases h
    exact ⟨wordNNN_of_class (BitVec.eq_of_toNat_eq hc), rfl⟩
  case h_4 hc | h_5 hc | h_7 hc | h_8 hc | h_13 hc =>
    cases h
    exact ⟨wordXKK_of_class (BitVec.eq_of_toNat_eq hc), rfl⟩
  case h_6 hc => exact absurd (BitVec.eq_of_toNat_eq hc) h5
  case h_9 hc => exact encode_decodeClass8 (BitVec.eq_of_toNat_eq hc) h
  case h_10 hc => exact absurd (BitVec.eq_of_toNat_eq hc) h9
  case h_14 hc =>
    cases h
    exact ⟨wordXYN_of_class (BitVec.eq_of_toNat_eq hc), rfl⟩
  case h_15 hc => exact encode_decodeClassE (BitVec.eq_of_toNat_eq hc) h
  case h_16 =>
    have hc : fieldC w = 0xF := fieldC_eq_F_of_others fun c _ => by interval_cases c <;> assumption
    exact encode_decodeClassF hc h

/-- Settles O3: class by class, `encode` writes the fields that the decoder read back into the format of the class. -/
theorem encodeOfDecode : Obligations.EncodeOfDecode := fun _ _ => encode_decodeWord

/-! ## The rows of the opcode table -/

section Rows

variable {w v : Word}

/-- A row with the mask 0xF000 fixes the class (30_encoding.md R82). -/
theorem fieldC_of_selects (h : OpcodeRow.selects ⟨0xF000, v⟩ w = true) : fieldC w = fieldC v := by
  have masked : w &&& 0xF000#16 = v := beq_iff_eq.1 h
  rw [← masked, and_classMask, fieldC_wordNNN]

/-- A row with the mask 0xF00F fixes the class and the low nibble. -/
theorem fieldC_fieldN_of_selects (h : OpcodeRow.selects ⟨0xF00F, v⟩ w = true) :
    fieldC w = fieldC v ∧ fieldN w = fieldN v := by
  have masked : w &&& 0xF00F#16 = v := beq_iff_eq.1 h
  rw [← masked, and_classNibbleMask, fieldC_wordXYN, fieldN_wordXYN]
  exact ⟨rfl, rfl⟩

/-- A row with the mask 0xF0FF fixes the class and the low byte. -/
theorem fieldC_fieldKK_of_selects (h : OpcodeRow.selects ⟨0xF0FF, v⟩ w = true) :
    fieldC w = fieldC v ∧ fieldKK w = fieldKK v := by
  have masked : w &&& 0xF0FF#16 = v := beq_iff_eq.1 h
  rw [← masked, and_classByteMask, fieldC_wordXKK, fieldKK_wordXKK]
  exact ⟨rfl, rfl⟩

/-- A row with the mask 0xFFFF is one word. -/
theorem eq_of_selects (h : OpcodeRow.selects ⟨0xFFFF, v⟩ w = true) : w = v := by
  have masked : w &&& 0xFFFF#16 = v := beq_iff_eq.1 h
  rwa [show 0xFFFF#16 = BitVec.allOnes 16 from rfl, BitVec.and_allOnes] at masked

/-- A word that selects an instruction's row decodes to an instruction of that row, but for CLS and RET, whose words
select SYS's row too (30_encoding.md R82). -/
theorem decodeWord_of_selects {j : Instr} (h : j.row.selects w = true) :
    ∃ i, decodeWord w = .ok i ∧ (j.row = i.row ∨ (w ∈ [0x00E0#16, 0x00EE#16] ∧ j.row = (Instr.sys 0).row)) := by
  cases j with
  | sys nnn =>
    refine ⟨_, decodeWord_of_class0 (fieldC_of_selects h), ?_⟩
    rcases decodeClass0_cases w with ⟨rfl, -⟩ | ⟨rfl, -⟩ | ⟨-, -, answer⟩
    · exact .inr ⟨by simp, rfl⟩
    · exact .inr ⟨by simp, rfl⟩
    · exact .inl (answer ▸ rfl)
  | cls | ret => exact ⟨_, eq_of_selects h ▸ rfl, .inl rfl⟩
  | jp nnn => exact ⟨_, decodeWord_of_class1 (fieldC_of_selects h), .inl rfl⟩
  | call nnn => exact ⟨_, decodeWord_of_class2 (fieldC_of_selects h), .inl rfl⟩
  | se x kk => exact ⟨_, decodeWord_of_class3 (fieldC_of_selects h), .inl rfl⟩
  | sne x kk => exact ⟨_, decodeWord_of_class4 (fieldC_of_selects h), .inl rfl⟩
  | seReg x y => exact ⟨_, decodeWord_of_class5 (fieldC_of_selects h), .inl rfl⟩
  | ld x kk => exact ⟨_, decodeWord_of_class6 (fieldC_of_selects h), .inl rfl⟩
  | add x kk => exact ⟨_, decodeWord_of_class7 (fieldC_of_selects h), .inl rfl⟩
  | sneReg x y => exact ⟨_, decodeWord_of_class9 (fieldC_of_selects h), .inl rfl⟩
  | ldI nnn => exact ⟨_, decodeWord_of_classA (fieldC_of_selects h), .inl rfl⟩
  | jpV0 nnn => exact ⟨_, decodeWord_of_classB (fieldC_of_selects h), .inl rfl⟩
  | rnd x kk => exact ⟨_, decodeWord_of_classC (fieldC_of_selects h), .inl rfl⟩
  | drw x y n => exact ⟨_, decodeWord_of_classD (fieldC_of_selects h), .inl rfl⟩
  | ldReg x y | orReg x y | andReg x y | xorReg x y | addReg x y | sub x y | shr x y | subn x y | shl x y =>
    obtain ⟨hc, hn⟩ := fieldC_fieldN_of_selects h
    rw [decodeWord_of_class8 hc, decodeClass8, hn]
    exact ⟨_, rfl, .inl rfl⟩
  | skp x | sknp x =>
    obtain ⟨hc, hkk⟩ := fieldC_fieldKK_of_selects h
    rw [decodeWord_of_classE hc, decodeClassE, hkk]
    exact ⟨_, rfl, .inl rfl⟩
  | ldVxDt x | ldVxK x | ldDtVx x | ldStVx x | addIVx x | ldFVx x | ldBVx x | ldMemVx x | ldVxMem x =>
    obtain ⟨hc, hkk⟩ := fieldC_fieldKK_of_selects h
    rw [decodeWord_of_classF hc, decodeClassF, hkk]
    exact ⟨_, rfl, .inl rfl⟩

/-- The family `Laws.RowBits` put together: every encoded instruction selects its own row. -/
theorem selects_encode (i : Instr) : i.row.selects (encode i) = true :=
  match i with
  | .sys nnn => Laws.RowBits.sys nnn
  | .cls => Laws.RowBits.cls
  | .ret => Laws.RowBits.ret
  | .jp nnn => Laws.RowBits.jp nnn
  | .call nnn => Laws.RowBits.call nnn
  | .se x kk => Laws.RowBits.se x kk
  | .sne x kk => Laws.RowBits.sne x kk
  | .seReg x y => Laws.RowBits.seReg x y
  | .ld x kk => Laws.RowBits.ld x kk
  | .add x kk => Laws.RowBits.add x kk
  | .ldReg x y => Laws.RowBits.ldReg x y
  | .orReg x y => Laws.RowBits.orReg x y
  | .andReg x y => Laws.RowBits.andReg x y
  | .xorReg x y => Laws.RowBits.xorReg x y
  | .addReg x y => Laws.RowBits.addReg x y
  | .sub x y => Laws.RowBits.sub x y
  | .shr x y => Laws.RowBits.shr x y
  | .subn x y => Laws.RowBits.subn x y
  | .shl x y => Laws.RowBits.shl x y
  | .sneReg x y => Laws.RowBits.sneReg x y
  | .ldI nnn => Laws.RowBits.ldI nnn
  | .jpV0 nnn => Laws.RowBits.jpV0 nnn
  | .rnd x kk => Laws.RowBits.rnd x kk
  | .drw x y n => Laws.RowBits.drw x y n
  | .skp x => Laws.RowBits.skp x
  | .sknp x => Laws.RowBits.sknp x
  | .ldVxDt x => Laws.RowBits.ldVxDt x
  | .ldVxK x => Laws.RowBits.ldVxK x
  | .ldDtVx x => Laws.RowBits.ldDtVx x
  | .ldStVx x => Laws.RowBits.ldStVx x
  | .addIVx x => Laws.RowBits.addIVx x
  | .ldFVx x => Laws.RowBits.ldFVx x
  | .ldBVx x => Laws.RowBits.ldBVx x
  | .ldMemVx x => Laws.RowBits.ldMemVx x
  | .ldVxMem x => Laws.RowBits.ldVxMem x

/-- A row with the mask 0xF000 is selected by every word of its class. -/
theorem selects_of_fieldC {c : BitVec 4} (hc : fieldC w = c) : OpcodeRow.selects ⟨0xF000, wordNNN c 0⟩ w = true :=
  beq_iff_eq.2 ((and_classMask w).trans (hc ▸ rfl))

/-- A word selects the row of the instruction it decodes to: the row of SE reg or SNE reg leaves the ignored nibble out,
and every other word is the one `encode` writes. -/
theorem selects_of_decodeWord {i : Instr} (h : decodeWord w = .ok i) : i.row.selects w = true := by
  by_cases h5 : fieldC w = 0x5
  · rw [decodeWord_of_class5 h5] at h
    cases h
    exact selects_of_fieldC h5
  by_cases h9 : fieldC w = 0x9
  · rw [decodeWord_of_class9 h9] at h
    cases h
    exact selects_of_fieldC h9
  obtain ⟨word, -⟩ := encode_decodeWord h
  rw [canonicalWord_of_other h5 h9] at word
  exact word ▸ selects_encode i

/-- The decoder's one error on a word is UnknownOpcode with that word (30_encoding.md R76 to R78). -/
theorem eq_unknownOpcode_of_decodeWord {e : DecodeError} (h : decodeWord w = .error e) : e = .unknownOpcode w := by
  unfold decodeWord at h
  split at h
  case h_9 =>
    unfold decodeClass8 at h
    split at h
    all_goals cases h
    rfl
  case h_15 =>
    unfold decodeClassE at h
    split at h
    all_goals cases h
    rfl
  case h_16 =>
    unfold decodeClassF at h
    split at h
    all_goals cases h
    rfl
  all_goals cases h

end Rows

/-- Settles O7: the decoded instruction's row is selected, every row selected is that of the decoded instruction or SYS's,
and so a word has a row exactly when it decodes. -/
theorem decoderAgreesWithOpcodeTable : Obligations.DecoderAgreesWithOpcodeTable := by
  refine fun w => ⟨fun i decoded => ⟨selects_of_decodeWord decoded, fun j selected => ?rows⟩, fun none => ?noRow,
    fun undecoded j => Bool.eq_false_iff.2 fun selected => ?error⟩
  case rows =>
    obtain ⟨i', decoded', rows⟩ := decodeWord_of_selects selected
    cases decoded.symm.trans decoded'
    exact rows
  case noRow =>
    cases decoded : decodeWord w with
    | ok i => exact absurd (selects_of_decodeWord decoded) (Bool.eq_false_iff.1 (none i))
    | error e => rw [eq_unknownOpcode_of_decodeWord decoded]
  case error =>
    obtain ⟨i, decoded, -⟩ := decodeWord_of_selects selected
    cases undecoded.symm.trans decoded

/-! ## The first level of the dispatch -/

/-- Settles O4: each class has its equation of the decoder, and class 0x0 has the three answers of `decodeClass0`. -/
theorem twelveClassesMapToOneInstruction : Obligations.TwelveClassesMapToOneInstruction := by
  refine fun w => ⟨fun hc => ?class0, decodeWord_of_class1, decodeWord_of_class2, decodeWord_of_class3,
    decodeWord_of_class4, decodeWord_of_class5, decodeWord_of_class6, decodeWord_of_class7, decodeWord_of_class9,
    decodeWord_of_classA, decodeWord_of_classB, decodeWord_of_classC, decodeWord_of_classD⟩
  case class0 =>
    rw [decodeWord_of_class0 hc]
    rcases decodeClass0_cases w with ⟨-, answer⟩ | ⟨-, answer⟩ | ⟨-, -, answer⟩
    · exact .inl (congrArg _ answer)
    · exact .inr (.inl (congrArg _ answer))
    · exact .inr (.inr (congrArg _ answer))

/-- Settles O5: the three answers of class 0x0 are different instructions, each for its own words. -/
theorem clsAndRetAreExactWords : Obligations.ClsAndRetAreExactWords := by
  intro w hc
  rw [decodeWord_of_class0 hc]
  rcases decodeClass0_cases w with ⟨rfl, answer⟩ | ⟨rfl, answer⟩ | ⟨hcls, hret, answer⟩
  · simp [answer]
  · simp [answer]
  · simp [answer, hcls, hret]

/-- Settles O1: each word is closed, so the decoder computes its answer. -/
theorem workedWordsDecode : Obligations.WorkedWordsDecode := by
  unfold Obligations.WorkedWordsDecode
  decide

end Sys2Proof

/-! # The invariant: every step and every transaction keeps memory canonical

Memory changes by `memWrite` alone, which keeps the canonical form: in the two storing instructions, and in `load`. Reset
writes it whole, canonical by `memoryBelow_wf`. -/

namespace Sys2Proof.Machine

open Sys2Proof

section Invariant

variable {i : Instr} {s t : State}

/-- An instruction that is no store leaves the list of cells itself as it is. -/
theorem exec_mem (h : exec i s = .next t) (no_store : .memory ∉ writtenParts i) : t.mem = s.mem := by
  cases i with
  | sys nnn | cls | jp nnn | se x kk | sne x kk | seReg x y | ld x kk | add x kk | ldReg x y | orReg x y | andReg x y
  | xorReg x y | addReg x y | sub x y | shr x y | subn x y | shl x y | sneReg x y | ldI nnn | jpV0 nnn | rnd x kk
  | drw x y n | skp x | sknp x | ldVxDt x | ldDtVx x | ldStVx x | addIVx x =>
    cases h
    rfl
  | ret => rcases exec_ret_cases h with ⟨hsp, rfl⟩ | ⟨-, rfl⟩ <;> rfl
  | call nnn => rcases exec_call_cases h with ⟨hsp, rfl⟩ | ⟨-, rfl⟩ <;> rfl
  | ldFVx x => rcases exec_ldFVx_cases h with ⟨-, rfl⟩ | ⟨-, rfl⟩ <;> rfl
  | ldVxK x => rcases exec_ldVxK_cases h with ⟨k, -, rfl⟩ | ⟨-, rfl⟩ <;> rfl
  | ldVxMem x =>
    cases h
    rw [State.setPc_mem, State.loadRegs_eq]
  | ldBVx x | ldMemVx x => exact absurd (by simp [writtenParts]) no_store

theorem inv_of_mem_eq (hs : s.Inv) (same : t.mem = s.mem) : t.Inv := by
  rw [State.Inv, same]
  exact hs

/-- Every instruction keeps memory canonical (20_memory.md R50, R53). -/
theorem exec_inv (hs : s.Inv) (h : exec i s = .next t) : t.Inv := by
  by_cases store : .memory ∈ writtenParts i
  · rcases memory_mem_writtenParts.1 store with ⟨x, rfl⟩ | ⟨x, rfl⟩
    · cases h
      exact State.memWrite_wf (State.memWrite_wf (State.memWrite_wf hs _ _) _ _) _ _
    · cases h
      exact State.storeRegs_wf hs _
  · exact inv_of_mem_eq hs (exec_mem h store)

/-- Every step keeps memory canonical: the environment's turn and the entry of an error do not write it. -/
theorem step_inv (hs : s.Inv) (h : step s = .next t) : t.Inv := by
  have settled : s.settle.Inv := inv_of_mem_eq hs s.settle_mem
  rcases step_cases h with ⟨e, -, rfl⟩ | ⟨i, -, hx⟩
  · exact settled
  · exact exec_inv (s := s.settle.clearErr) settled hx

/-- Reset memory is canonical at every value of the open parameters (70_reset_and_hazards.md R190). -/
theorem resetWith_inv (p : ResetParams) : (State.resetWith p).Inv := p.memoryBelow_wf (Nat.le_refl _)

/-- The step transaction answers the state of the step, with its response (10_state.md R41). -/
theorem transact_step (h : step s = .next t) : transact .step s = .next (t, t.stepResponse) := by
  simp only [transact, h]

/-- A step transaction leads to the state of the step and no other. -/
theorem step_of_transact_step {r : Response} (h : transact .step s = .next (t, r)) : step s = .next t := by
  simp only [transact] at h
  split at h <;> cases h
  assumption

/-- Every transaction keeps memory canonical (10_state.md R38). -/
theorem transact_inv {tr : Transaction} {r : Response} (hs : s.Inv) (h : transact tr s = .next (t, r)) : t.Inv := by
  cases tr with
  | reset p =>
    cases h
    exact resetWith_inv p
  | load a b =>
    cases h
    exact State.memWrite_wf hs a b
  | step => exact step_inv hs (step_of_transact_step h)
  | tick | keySet k pressed | fbRead x y | skipError =>
    cases h
    exact hs

/-- A list of transactions that answers a state did its first transaction, and the rest from there. -/
theorem transactAll_cons {tr : Transaction} {ts : List Transaction} (h : transactAll (tr :: ts) s = .next t) :
    ∃ u r, transact tr s = .next (u, r) ∧ transactAll ts u = .next t := by
  simp only [transactAll] at h
  split at h
  case h_1 u r first => exact ⟨u, r, first, h⟩
  all_goals cases h

theorem transactAll_inv {ts : List Transaction} (hs : s.Inv) (h : transactAll ts s = .next t) : t.Inv := by
  induction ts generalizing s with
  | nil =>
    cases h
    exact hs
  | cons tr ts ih =>
    obtain ⟨u, r, first, others⟩ := transactAll_cons h
    exact ih (transact_inv hs first) others

end Invariant

/-- Settles O15: the step raises an error, which leaves memory, or executes an instruction, which keeps it canonical. -/
theorem stepKeepsMemoryCanonical : Obligations.StepKeepsMemoryCanonical := fun _ _ => step_inv

/-- Settles O16: by induction on the list, each transaction keeping the invariant. -/
theorem transactionsKeepMemoryCanonical : Obligations.TransactionsKeepMemoryCanonical := fun _ _ _ => transactAll_inv

/-- Settles O17: `State.reset` lists no cell, and `resetWith` lists the cells in order. -/
theorem resetMemoryIsCanonical : Obligations.ResetMemoryIsCanonical :=
  ⟨⟨.nil, fun _ listed => absurd listed List.not_mem_nil⟩, resetWith_inv⟩

/-! # Steps: they complete, repeat an error, and do not read ERR -/

section Steps

variable {i : Instr} {s t : State}

/-- Every instruction leads to a state; where it has a check, on each side of it (40_cycle.md R99). -/
theorem exec_completes (i : Instr) (s : State) : ∃ t, exec i s = .next t := by
  cases i with
  | ret =>
    rcases Nat.eq_zero_or_pos s.sp.val with empty | pos
    · exact ⟨_, exec_ret_of_empty s empty⟩
    · exact ⟨_, exec_ret_of_pos s pos⟩
  | call nnn =>
    rcases (Nat.le_of_lt_succ s.sp.isLt).lt_or_eq with room | full
    · exact ⟨_, exec_call_of_lt s nnn room⟩
    · exact ⟨_, exec_call_of_full s nnn full⟩
  | ldFVx x =>
    rcases Nat.lt_or_ge 15 (s.getV x).toNat with outside | inside
    · exact ⟨_, exec_ldFVx_of_gt outside⟩
    · exact ⟨_, exec_ldFVx_of_le inside⟩
  | ldVxK x =>
    simp only [exec, execLdVxK]
    split <;> exact ⟨_, rfl⟩
  | _ => exact ⟨_, rfl⟩

/-- A step executes the decoded instruction with ERR.code at 0 (40_cycle.md R90). -/
theorem step_of_decode_ok (h : decodeWord s.settle.fetchWord = .ok i) : step s = exec i s.settle.clearErr := by
  simp only [step, cycle, h]

theorem step_completes (s : State) : ∃ t, step s = .next t := by
  cases h : decodeWord s.settle.fetchWord with
  | ok i => exact step_of_decode_ok h ▸ exec_completes i _
  | error e => exact ⟨_, step_of_decode_error h⟩

/-- An instruction whose check fails raises the code of that check. -/
theorem exec_of_failedCheck (failed : failedCheck s i ≠ .none) : exec i s = .next (s.raise (failedCheck s i)) := by
  obtain ⟨t, h⟩ := exec_completes i s
  rcases exec_err_cases h with ⟨passed, -⟩ | ⟨-, rfl⟩
  · exact absurd passed failed
  · exact h

/-- The check of an instruction reads SP and a register, never ERR. -/
theorem failedCheck_raise_clearErr (s : State) (c : ErrCode) (i : Instr) :
    failedCheck (s.raise c).clearErr i = failedCheck s i := by
  cases i <;> rfl

/-- With nothing scheduled the environment's turn is empty. -/
theorem settle_of_schedule_nil (h : s.schedule = []) : s.settle = s := by
  simp only [State.settle, h]

/-- A block store neither reads nor writes ERR. -/
theorem storeRegs_err (s : State) (e : ErrStatus) (n : Nat) :
    State.storeRegs { s with err := e } n = { s.storeRegs n with err := e } := by
  induction n with
  | zero => rfl
  | succ n ih =>
    rw [State.storeRegs, ih]
    rfl

/-- A block load neither reads nor writes ERR. -/
theorem loadRegs_err (s : State) (e : ErrStatus) (n : Nat) :
    State.loadRegs { s with err := e } n = { s.loadRegs n with err := e } := by
  induction n with
  | zero => rfl
  | succ n ih =>
    rw [State.loadRegs, ih]
    rfl

end Steps

/-- Settles O12: every instruction leads to a state on both sides of its check, and so does an unknown word. -/
theorem everyStepCompletes : Obligations.EveryStepCompletes := ⟨step_completes, exec_completes⟩

/-- Settles O13: the state of the error has the PC, memory and checked values of the state it was raised in, so the same
word is fetched there and the same check fails. -/
theorem errorRepeatsUntilSkipped : Obligations.ErrorRepeatsUntilSkipped := by
  intro s t h bad idle
  have settled : t.settle = t := settle_of_schedule_nil idle
  rcases step_cases h with ⟨e, undecoded, rfl⟩ | ⟨i, decoded, hx⟩
  case inl =>
    rw [step_of_decode_error (e := e) (by rw [settled]; exact undecoded), settled]
    rfl
  case inr =>
    rcases exec_err_cases hx with ⟨passed, -⟩ | ⟨failed, rfl⟩
    · exact absurd ((exec_clearErr_code hx).trans passed) bad
    · have again := failedCheck_raise_clearErr s.settle.clearErr (failedCheck s.settle.clearErr i) i
      rw [step_of_decode_ok (i := i) (by rw [settled]; exact decoded), settled, exec_of_failedCheck (again ▸ failed), again]
      rfl

/-- Settles O14: the checks of RET, CALL, LD F,VX and LD VX,K come out alike in the two states, the block transfers copy
ERR, and every other meaning is one update that does not look at it. -/
theorem noInstructionReadsErr : Obligations.NoInstructionReadsErr := by
  intro i s e
  cases i with
  | ret =>
    rcases Nat.eq_zero_or_pos s.sp.val with empty | pos
    · exact ⟨_, _, exec_ret_of_empty s empty, exec_ret_of_empty { s with err := e } empty, rfl⟩
    · exact ⟨_, _, exec_ret_of_pos s pos, exec_ret_of_pos { s with err := e } pos, rfl⟩
  | call nnn =>
    rcases (Nat.le_of_lt_succ s.sp.isLt).lt_or_eq with room | full
    · exact ⟨_, _, exec_call_of_lt s nnn room, exec_call_of_lt { s with err := e } nnn room, rfl⟩
    · exact ⟨_, _, exec_call_of_full s nnn full, exec_call_of_full { s with err := e } nnn full, rfl⟩
  | ldFVx x =>
    rcases Nat.lt_or_ge 15 (s.getV x).toNat with outside | inside
    · exact ⟨_, _, exec_ldFVx_of_gt outside, exec_ldFVx_of_gt (s := { s with err := e }) outside, rfl⟩
    · exact ⟨_, _, exec_ldFVx_of_le inside, exec_ldFVx_of_le (s := { s with err := e }) inside, rfl⟩
  | ldVxK x =>
    have same_key : State.firstKey { s with err := e } = s.firstKey := rfl
    simp only [exec, execLdVxK, same_key]
    split <;> exact ⟨_, _, rfl, rfl, rfl⟩
  | ldMemVx x =>
    refine ⟨_, _, rfl, rfl, ?_⟩
    rw [storeRegs_err]
    rfl
  | ldVxMem x =>
    refine ⟨_, _, rfl, rfl, ?_⟩
    rw [loadRegs_err]
    rfl
  | _ => exact ⟨_, _, rfl, rfl, rfl⟩

end Sys2Proof.Machine

/-! # The fetch, the environment's turn before a step, and the embedding's turn after it

The environment's events commute with a change of memory, so a word placed before its turn is fetched after it. One event
at the front of the turn is one `applyEvent`; each kind has its frame. -/

namespace Sys2Proof

/-- The word of two bytes, as the shift and the OR of 20_memory.md R51. -/
theorem wordOfBytes_eq_shift_or (hi lo : Byte) : wordOfBytes hi lo = (hi.setWidth 16 <<< 8) ||| lo.setWidth 16 := by
  apply BitVec.eq_of_getLsbD_eq
  intro k hk
  simp only [wordOfBytes, BitVec.getLsbD_append, BitVec.getLsbD_or, BitVec.getLsbD_shiftLeft, BitVec.getLsbD_setWidth]
  by_cases low : k < 8
  · simp [low, hk]
  · simp [low, hk, show k - 8 < 16 by omega, BitVec.getLsbD_of_ge lo k (by omega)]

/-- The host's window on the decoder is `decodeWord` at the word itself. -/
theorem decodeWord_of_decodeTableWord {nbits w : Nat} {i : Instr} (h : decodeTableWord nbits w = some i) :
    decodeWord (BitVec.ofNat 16 (w % 2 ^ nbits)) = .ok i := by
  cases decoded : decodeWord (BitVec.ofNat 16 (w % 2 ^ nbits)) with
  | ok j =>
    rw [decodeTableWord, decode, wordOfBytes_high_low, decoded] at h
    cases h
    rfl
  | error e =>
    rw [decodeTableWord, decode, wordOfBytes_high_low, decoded] at h
    cases h

end Sys2Proof

namespace Sys2Proof.Machine

open Sys2Proof

section Frames

variable (s : State)

/-- 4096 divides 0x10000, so the wrap of a word does not show in the address (20_memory.md R53). -/
theorem toNat_add_one_mod (a : Word) : (a + 1#16).toNat % Config.memSize = (a.toNat + 1) % Config.memSize := by
  simp only [Config.memSize, BitVec.toNat_add, BitVec.toNat_ofNat]
  omega

theorem sameBut_clearErr : SameBut [.err] s s.clearErr := by
  intro p hp
  cases p <;> simp_all [Part.Same]

theorem sameBut_keySet (k : KeyIx) (pressed : Bool) : SameBut [.keys] s (s.keySet k pressed) := by
  intro p hp
  cases p <;> simp_all [Part.Same]

theorem sameBut_schedule (schedule : List (List EnvEvent)) : SameBut [.schedule] s { s with schedule := schedule } := by
  intro p hp
  cases p <;> simp_all [Part.Same, State.getV, State.memRead, State.key]

/-- The environment's turn writes the timers, the latch, PC and the schedule alone (10_state.md R38). -/
theorem sameBut_settle : SameBut [.dt, .st, .keys, .pc, .schedule] s s.settle := by
  intro p hp
  rw [State.settle_eq]
  cases p <;> simp_all [Part.Same, State.getV, State.memRead]

/-- A reset transaction leaves what reset leaves, and what the environment has lined up (log 8, log 9). -/
theorem sameBut_resetTo (p : ResetParams) : SameBut [.schedule, .draws] (State.resetWith p) (s.resetTo p) := by
  intro q hq
  cases q <;> simp_all [Part.Same, State.resetTo, State.getV, State.memRead, State.key]

end Frames

section Turn

variable {s : State} {es : List EnvEvent} {rest : List (List EnvEvent)}

/-! ## The environment's turn, event by event -/

theorem settle_of_schedule_cons (h : s.schedule = es :: rest) :
    s.settle = es.foldl State.applyEvent { s with schedule := rest } := by
  simp only [State.settle, h]

/-- The first event takes effect, and the others from there (log 8). -/
theorem settle_of_event {e : EnvEvent} (h : s.schedule = (e :: es) :: rest) :
    s.settle = (State.applyEvent { s with schedule := es :: rest } e).settle := by
  have others : (State.applyEvent { s with schedule := es :: rest } e).schedule = es :: rest := by cases e <;> rfl
  rw [settle_of_schedule_cons h, settle_of_schedule_cons others, List.foldl_cons]
  cases e <;> rfl

/-- n ticks lower each timer by n, saturating at 0, and change nothing else (60_exceptions.md R180). -/
theorem foldl_ticks {n : Nat} {s t : State} (ht : t = (List.replicate n EnvEvent.tick).foldl State.applyEvent s) :
    t.dt.toNat = s.dt.toNat - n ∧ t.st.toNat = s.st.toNat - n ∧ SameBut [.dt, .st] s t := by
  induction n generalizing s with
  | zero => exact ht ▸ ⟨rfl, rfl, SameBut.refl _ s⟩
  | succ n ih =>
    obtain ⟨dt_later, st_later, frame⟩ := ih (s := s.tick) ht
    rw [State.tick_dt, State.toNat_countDown, Nat.sub_sub, Nat.add_comm 1] at dt_later
    rw [State.tick_st, State.toNat_countDown, Nat.sub_sub, Nat.add_comm 1] at st_later
    exact ⟨dt_later, st_later, ((sameBut_tick s).trans frame).mono (by simp)⟩

/-! ## The environment's turn and memory -/

/-- No event reads or writes memory. -/
theorem foldl_applyEvent_mem (es : List EnvEvent) (s : State) (m : Memory) :
    es.foldl State.applyEvent { s with mem := m } = { es.foldl State.applyEvent s with mem := m } := by
  induction es generalizing s with
  | nil => rfl
  | cons e es ih =>
    cases e with
    | tick => exact ih s.tick
    | keySet k pressed => exact ih (s.keySet k pressed)
    | skipError => exact ih s.skipError

theorem settle_with_mem (s : State) (m : Memory) : State.settle { s with mem := m } = { s.settle with mem := m } := by
  by_cases h : s.schedule = []
  · rw [settle_of_schedule_nil h, settle_of_schedule_nil (s := { s with mem := m }) h]
  · obtain ⟨es, rest, h⟩ := List.exists_cons_of_ne_nil h
    rw [settle_of_schedule_cons h, settle_of_schedule_cons (s := { s with mem := m }) h]
    exact foldl_applyEvent_mem es { s with schedule := rest } m

/-- A word placed before the environment's turn stands there after it. -/
theorem settle_placeWord (s : State) (a w : Word) : (s.placeWord a w).settle = s.settle.placeWord a w := by
  refine (settle_with_mem s (s.placeWord a w).mem).trans ?_
  simp only [State.placeWord, State.memWrite, State.settle_mem]

/-- A placed word writes two bytes, at PC and PC + 1 mod 4096 (20_memory.md R51, R53). -/
theorem bytesBut_placeWord (s : State) (a w : Word) : BytesBut [a.toNat, a.toNat + 1] s (s.placeWord a w) := by
  intro n hn
  have bytes := (bytesBut_memWrite s a.toNat (highByte w)).trans (bytesBut_memWrite _ (a + 1#16).toNat (lowByte w))
  refine bytes n fun c hc => ?_
  simp only [List.mem_append, List.mem_cons, List.not_mem_nil, or_false] at hc
  rcases hc with rfl | rfl
  · exact hn _ (by simp)
  · rw [toNat_add_one_mod]
    exact hn _ (by simp)

theorem sameBut_placeWord (s : State) (a w : Word) : SameBut [.memory] s (s.placeWord a w) :=
  ((sameBut_memWrite s _ _).trans (sameBut_memWrite _ _ _)).mono (by simp)

end Turn

section Embedding

variable {s t : State}

/-! ## The embedding's turn after a step (60_exceptions.md R176) -/

theorem stepUnder_eq_respond (h : step s = .next t) (policy : Config.ErrorPolicy) :
    stepUnder policy s = respond policy t := by
  simp only [stepUnder, h]

theorem respond_of_good (h : t.good) (policy : Config.ErrorPolicy) : respond policy t = .next t := if_pos h

end Embedding

/-! ## The obligations of 20_memory.md section 2 and 40_cycle.md -/

/-- Settles O8: the two bytes of the word are read at PC and PC + 1, and `memRead` takes both mod 4096. -/
theorem fetchIsBigEndianAndWraps : Obligations.FetchIsBigEndianAndWraps := by
  intro s
  have high : s.memRead (s.pc.toNat % 4096) = s.memRead s.pc.toNat := s.memRead_mod _
  have low : s.memRead ((s.pc.toNat + 1) % 4096) = s.memRead (s.pc + 1#16).toNat :=
    (s.memRead_mod _).trans (State.memRead_congr (toNat_add_one_mod s.pc).symm)
  rw [high, low]
  exact wordOfBytes_eq_shift_or _ _

/-- Settles O9: `step` unfolds at a word that decodes, and the two updates before `exec` have their frames. -/
theorem stepRunsDecodedInstruction : Obligations.StepRunsDecodedInstruction :=
  ⟨fun _ _ => step_of_decode_ok, fun s => ⟨sameBut_clearErr s, rfl⟩, fun s => ⟨sameBut_settle s, s.settle_schedule⟩,
    fun _ => settle_of_schedule_nil⟩

/-- Settles O56: the environment's turn leaves the placed word where it is and PC at it, so the word is fetched. -/
theorem placedWordRunsNext : Obligations.PlacedWordRunsNext := by
  intro s nbits w i hs decodes
  have settled := settle_placeWord s s.settle.pc (BitVec.ofNat 16 (w % 2 ^ nbits))
  have fetched := State.fetchWord_placeWord (s := s.settle) (inv_of_mem_eq hs s.settle_mem)
    (BitVec.ofNat 16 (w % 2 ^ nbits))
  have decoded : decodeWord (s.withFetchWord nbits w).settle.fetchWord = .ok i := by
    rw [State.withFetchWord, settled, fetched]
    exact decodeWord_of_decodeTableWord decodes
  refine ⟨_, step_of_decode_ok decoded, ?_⟩
  rw [State.withFetchWord, settled]
  exact ⟨rfl, (sameBut_placeWord _ _ _).trans (sameBut_clearErr _), bytesBut_placeWord _ _ _⟩

/-! ## The obligations of 10_state.md section 8 and 60_exceptions.md -/

/-- Settles O42: the turn is the n ticks, from the state with the schedule moved on. -/
theorem manyTicksCountDown : Obligations.ManyTicksCountDown := by
  intro n s rest h
  obtain ⟨dt_lower, st_lower, frame⟩ := foldl_ticks (settle_of_schedule_cons h)
  exact ⟨dt_lower, st_lower, ((sameBut_schedule s rest).trans frame).mono (by simp)⟩

/-- Settles O58: the state between is the first event applied, with the others left in the schedule. -/
theorem scheduledEventsTakeEffectInOrder : Obligations.ScheduledEventsTakeEffectInOrder := by
  refine ⟨fun s rest h => ?noEvent, fun s es rest h => ?tick, fun s k pressed es rest h => ?key, fun s es rest h => ?skip⟩
  case noEvent =>
    rw [settle_of_schedule_cons h]
    exact ⟨sameBut_schedule s rest, rfl⟩
  case tick =>
    exact ⟨_, settle_of_event h, rfl, ((sameBut_schedule s _).trans (sameBut_tick _)).mono (by simp),
      State.toNat_countDown s.dt, State.toNat_countDown s.st⟩
  case key =>
    exact ⟨_, settle_of_event h, rfl, ((sameBut_schedule s _).trans (sameBut_keySet _ k pressed)).mono (by simp),
      (State.key_keySet _ k k pressed).trans (if_pos rfl), fun j hj => (State.key_keySet _ k j pressed).trans (if_neg hj)⟩
  case skip =>
    exact ⟨_, settle_of_event h, rfl, ((sameBut_schedule s _).trans (sameBut_setPc _ _)).mono (by simp), pcBy_advance s⟩

/-- Settles O54: the transaction is one `keySet`. -/
theorem keySetWritesOneKey : Obligations.KeySetWritesOneKey := fun s k pressed =>
  ⟨_, rfl, (s.key_keySet k k pressed).trans (if_pos rfl), fun j hj => (s.key_keySet k j pressed).trans (if_neg hj),
    sameBut_keySet s k pressed⟩

/-- Settles O55: without an error `respond` is the step's state, and with one it is the policy's arm. -/
theorem errorPolicyAfterAStep : Obligations.ErrorPolicyAfterAStep := by
  intro s t h
  simp only [stepUnder_eq_respond h]
  exact ⟨respond_of_good, fun bad => ⟨if_neg bad, if_neg bad, _, if_neg bad, pcBy_advance t, sameBut_setPc t _⟩⟩

/-- Settles O57: each transaction is its operation on the state, and the step's answer is the response of its state. -/
theorem resetLoadStepAndSkipTransactions : Obligations.ResetLoadStepAndSkipTransactions := by
  refine ⟨fun p s => ⟨_, rfl, sameBut_resetTo s p, rfl, rfl, rfl⟩, fun a b s hs => ?load, fun s => ?step,
    fun s => ⟨_, rfl, pcBy_advance s, sameBut_setPc s _⟩⟩
  case load =>
    exact ⟨_, rfl, (State.memRead_memWrite hs a a b).trans (if_pos rfl), bytesBut_memWrite s a b, sameBut_memWrite s a b⟩
  case step =>
    obtain ⟨t, h⟩ := step_completes s
    have answer := transact_step h
    by_cases good : t.good
    · exact ⟨t, h, .inl ⟨good, stepResponse_of_good good ▸ answer⟩⟩
    · exact ⟨t, h, .inr ⟨good, stepResponse_of_not_good good ▸ answer⟩⟩

/-! ## The obligations of 70_reset_and_hazards.md -/

/-- The bytes of the default open values are what an unlisted address reads as (log 5, log 6). -/
theorem byte_default (a : Nat) : ResetParams.default.byte a = background a := by
  rw [ResetParams.byte]
  split
  case isTrue => simp [ResetParams.default]
  case isFalse => rfl

/-- Every byte is what an unlisted address reads as, so none is listed. -/
theorem memoryBelow_default (n : Nat) : ResetParams.default.memoryBelow n = [] := by
  rw [ResetParams.memoryBelow_eq, List.filterMap_eq_nil_iff]
  exact fun a _ => if_pos (byte_default a)

/-- Settles O50: the bytes after reset are the parameter's, below 80 its font; the other parts are its fields. -/
theorem resetLeavesTheSpecsState : Obligations.ResetLeavesTheSpecsState := by
  refine fun p => ⟨rfl, rfl, Framebuffer.pixel_clear, rfl, fun _ => rfl, rfl, rfl, rfl, fun _ => rfl, rfl,
    fun a => ?font, fun a ha hlt => ?mem⟩
  case font => exact (State.memRead_resetWith p (a.isLt.trans (by decide))).trans (dif_pos a.isLt)
  case mem => exact (State.memRead_resetWith p hlt).trans (dif_neg ha.not_gt)

/-- Settles O51: the two agree in every field by definition but in memory, where both list no cell. -/
theorem resetIsTheDefaultLaunchState : Obligations.ResetIsTheDefaultLaunchState := by
  rw [Obligations.ResetIsTheDefaultLaunchState, State.resetWith, memoryBelow_default]
  rfl

/-- Loading changes memory alone. -/
theorem sameBut_loadFrom (s : State) (a : Nat) (image : List Byte) : SameBut [.memory] s (s.loadFrom a image) := by
  induction image generalizing s a with
  | nil => exact SameBut.refl _ s
  | cons b rest ih => exact ((sameBut_memWrite s a b).trans (ih _ _)).mono (by simp)

/-- Settles O52: an image of at most 3584 bytes is loaded byte by byte without wrapping, and only a longer one is refused. -/
theorem launchLoadsTheImage : Obligations.LaunchLoadsTheImage := by
  refine ⟨fun p image fits => ?fits, fun p image long => if_neg long.not_ge⟩
  case fits =>
    have hs := resetWith_inv p
    refine ⟨_, if_pos fits, fun k hk => ?inside, fun a ha outside => ?outside, sameBut_loadFrom _ _ _⟩
    case inside => exact State.memRead_loadFrom hs (fits.trans (by decide)) hk
    case outside =>
      refine State.memRead_loadFrom_of_ne hs fun k hk => ?_
      simp only [Config.memSize, Config.progBase]
      omega

end Sys2Proof.Machine

/-! # Instructions in sequence, flags, skips, keys, and the index register -/

namespace Sys2Proof.Machine

open Sys2Proof

section Instructions

variable {s t : State}

/-- A flag written last is read back as 0 or 1, also where V[X] is VF itself (10_state.md R21). -/
theorem getV_setVF_flagByte (s : State) (c : Bool) :
    (s.setVF (flagByte c)).advance.getV 0xF#4 = 0 ∨ (s.setVF (flagByte c)).advance.getV 0xF#4 = 1 := by
  rw [State.setPc_getV, State.getV_setV_self]
  cases c
  · exact .inl rfl
  · exact .inr rfl

/-- After a CALL that pushes, the entry below SP is the CALL's own address, and those below it are as before
(41_control_flow.md R104). -/
theorem exec_call_pushes {nnn : Addr12} (room : s.sp.val < 16) (h : exec (.call nnn) s = .next t) :
    t.sp.val = s.sp.val + 1 ∧ ∀ k : Fin 16, t.stack[k] = if k.val = s.sp.val then s.pc else s.stack[k] := by
  cases (exec_call_of_lt s nnn room).symm.trans h
  exact ⟨rfl, getElem_push_stack s s.pc room⟩

/-- The key selected by a register value is the value mod 16 (44_input_timer.md R150). -/
theorem keyIndex_eq {k : KeyIx} {v : Byte} (h : k.toNat = v.toNat % 16) : keyIndex v = k := by
  rw [keyIndex, ← h, BitVec.ofNat_toNat, BitVec.setWidth_eq]

/-- The scan stops at the pressed key below which none is pressed (44_input_timer.md R153). -/
theorem firstKey_of_lowest {k : KeyIx} (pressed : s.key k = true)
    (lowest : ∀ j : KeyIx, j.toNat < k.toNat → s.key j = false) : s.firstKey = some k.toNat := by
  rw [State.firstKey_eq_some, BitVec.ofNat_toNat, BitVec.setWidth_eq]
  refine ⟨k.isLt, pressed, fun m hm => lowest _ ?_⟩
  rwa [BitVec.toNat_ofNat, Nat.mod_eq_of_lt (hm.trans k.isLt)]

theorem exec_ldVxK_of_firstKey {x : RegIx} {k : Nat} (h : s.firstKey = some k) :
    exec (.ldVxK x) s = .next (s.setV x (BitVec.ofNat 8 k)).advance := by
  simp only [exec, execLdVxK, h]

theorem exec_ldVxK_of_none {x : RegIx} (h : s.firstKey = none) : exec (.ldVxK x) s = .next s := by
  simp only [exec, execLdVxK, h]

end Instructions

/-! ## The obligations of 41_control_flow.md -/

/-- Settles O22: both are the same `setPc`. -/
theorem sysJumpsLikeJp : Obligations.SysJumpsLikeJp := fun nnn s =>
  ⟨_, rfl, toNat_zextAddr nnn, sameBut_setPc s _, rfl⟩

/-- Settles O27: the class ignores the nibble, and SE and SNE are `skipWhen` on the test of V[X] against V[Y]. -/
theorem registerSkips : Obligations.RegisterSkips := by
  refine ⟨fun x y n => ⟨?se, ?sne⟩, fun x y s => ⟨_, rfl, ?equal, sameBut_setPc s _⟩,
    fun x y s => ⟨_, rfl, ?unequal, sameBut_setPc s _⟩⟩
  case se => rw [decodeWord_of_class5 (fieldC_wordXYN 0x5 x y n), fieldX_wordXYN, fieldY_wordXYN]
  case sne => rw [decodeWord_of_class9 (fieldC_wordXYN 0x9 x y n), fieldX_wordXYN, fieldY_wordXYN]
  case equal => simpa only [beq_iff_eq] using pcBy_skipWhen s (s.getV x == s.getV y)
  case unequal => simpa only [bne_iff_ne] using pcBy_skipWhen s (s.getV x != s.getV y)

/-- Settles O25: the RET pops the entry that the CALL pushed, which is the CALL's own address. -/
theorem callThenRetContinuesAfterTheCall : Obligations.CallThenRetContinuesAfterTheCall := by
  intro nnn s t u room called ⟨same_sp, same_stack⟩
  obtain ⟨sp_up, entries⟩ := exec_call_pushes room called
  rw [← same_sp] at sp_up
  rw [← same_stack] at entries
  have nonempty : 0 < u.sp.val := sp_up ▸ Nat.succ_pos _
  refine ⟨_, exec_ret_of_pos u nonempty, ?target, Fin.ext ?lowered, fun k hk => ?kept⟩
  case target =>
    have pushed : u.top nonempty = s.pc :=
      (top_eq_getElem u nonempty (k := ⟨s.sp.val, room⟩) sp_up).trans ((entries _).trans (if_pos rfl))
    rw [PcBy, State.setPc_pc, pushed]
    exact BitVec.toNat_add _ _
  case lowered => exact Nat.sub_eq_of_eq_add sp_up
  case kept => exact (entries k).trans (if_neg hk.ne)

/-! ## The obligations of 42_load_alu.md and of the flag register -/

/-- Settles O20: in each of the six VF is written last, with a flag byte. -/
theorem flagInstructionsLeaveZeroOrOne : Obligations.FlagInstructionsLeaveZeroOrOne := by
  intro x y n s t i hi h
  simp only [List.mem_cons, List.not_mem_nil, or_false] at hi
  rcases hi with rfl | rfl | rfl | rfl | rfl | rfl
  all_goals
    cases h
    exact getV_setVF_flagByte _ _

/-- Settles O34: the draw is the first byte lined up, or the free byte, and taking it changes the draws alone. -/
theorem rndMasksOneDraw : Obligations.RndMasksOneDraw := by
  intro x kk s
  have value : (s.drawTaken.setV x (s.randomByte &&& kk)).advance.getV x = s.randomByte &&& kk :=
    getV_setV_advance s.drawTaken x _
  refine ⟨_, rfl, fun r rest lined => ?linedUp, fun none => ?free, rfl, exec_regsBut (i := .rnd x kk) rfl,
    pcBy_advance (s.drawTaken.setV x _), (exec_sameBut (i := .rnd x kk) rfl).mono (by simp [writtenParts])⟩
  case linedUp => exact ⟨by rw [value, State.randomByte, lined], congrArg List.tail lined⟩
  case free => exact ⟨by rw [value, State.randomByte, none], congrArg List.tail none⟩

/-! ## The obligation of 43_display.md on two draws -/

/-- Two changes of one bit cancel. -/
theorem bool_eq_of_ne_iff_ne {a b c : Bool} (h : c ≠ b ↔ b ≠ a) : c = a := by
  revert a b c
  decide

theorem true_iff_false_of_ne {a b : Bool} (h : b ≠ a) : b = true ↔ a = false := by
  revert a b
  decide

/-- Settles O37: the second draw covers the pixels of the first, so it inverts each of them back; a covered pixel it finds
at 1 is one that was 0 before. -/
theorem drawingTwiceRestores : Obligations.DrawingTwiceRestores := by
  intro x y n s t u h same_screen same_memory same_index same_x same_y
  obtain ⟨t', ht, changed, -⟩ := drwXorsTheSpriteWithWrap x y n s
  cases h.symm.trans ht
  obtain ⟨v, hv, changed_back, collision, -⟩ := drwXorsTheSpriteWithWrap x y n u
  have frame := exec_sameBut h
  have memory (a : Nat) : u.memRead a = s.memRead a := ((frame .memory (by simp [writtenParts])).trans same_memory) a
  have index : u.i = s.i := (frame .index (by simp [writtenParts])).trans same_index
  simp only [memory, index, same_x, same_y, same_screen _ _] at changed_back collision
  refine ⟨v, hv, fun px py => bool_eq_of_ne_iff_ne ((changed_back px py).trans (changed px py).symm), ?collides⟩
  rcases collision with ⟨vf, px, py, set, covered⟩ | ⟨vf, none⟩
  · have was_clear := (true_iff_false_of_ne ((changed px py).2 covered)).1 set
    exact iff_of_true vf ⟨px, py, was_clear, covered⟩
  · have no_collision : v.getV 0xF#4 ≠ 1 := vf ▸ by decide
    refine iff_of_false no_collision fun ⟨px, py, was_clear, covered⟩ => none px py ?_ covered
    exact (true_iff_false_of_ne ((changed px py).2 covered)).2 was_clear

/-! ## The obligations of 44_input_timer.md -/

/-- Settles O38: SKP and SKNP are `skipWhen` on the key that V[X] selects. -/
theorem keySkips : Obligations.KeySkips := by
  refine ⟨fun x s k hk => ⟨_, rfl, ?skp, sameBut_setPc s _⟩, fun x s k hk => ⟨_, rfl, ?sknp, sameBut_setPc s _⟩⟩
  case skp =>
    rw [keyIndex_eq hk]
    exact pcBy_skipWhen s (s.key k)
  case sknp =>
    rw [keyIndex_eq hk]
    have skip := pcBy_skipWhen s (!s.key k)
    cases pressed : s.key k <;> simpa [pressed] using skip

/-- Settles O39: with a lowest pressed key the scan finds it, and with none it finds nothing. -/
theorem keyWaitTakesTheLowestKey : Obligations.KeyWaitTakesTheLowestKey := by
  refine ⟨fun x s k pressed lowest => ?taken, fun x s released => ?waits⟩
  case taken =>
    refine ⟨_, exec_ldVxK_of_firstKey (firstKey_of_lowest pressed lowest), ?value, frame_setV_advance s x _⟩
    rw [getV_setV_advance, BitVec.toNat_ofNat]
    omega
  case waits => exact exec_ldVxK_of_none ((State.firstKey_eq_none s).2 released)

/-! ## The obligations of 45_index_memory.md -/

/-- Settles O43: ADD I,VX is one `setI` and the advance. -/
theorem addToIndex : Obligations.AddToIndex := fun x s =>
  ⟨_, rfl, (BitVec.toNat_add s.i _).trans (by rw [toNat_zextByte]), pcBy_advance (s.setI _),
    exec_sameBut (i := .addIVx x) rfl⟩

/-- Settles O48: the load reads the bytes at the addresses the store wrote V0 to VX to. -/
theorem storeThenLoadBringsRegistersBack : Obligations.StoreThenLoadBringsRegistersBack := by
  intro x s t u hs stored same_memory same_index
  refine ⟨_, rfl, fun k hk => ?_⟩
  have index : u.i = s.i := (exec_sameBut stored .index (by simp [writtenParts])).trans same_index
  have address : u.addrI k.toNat = s.addrI k.toNat := by rw [State.addrI, index, State.addrI]
  rw [getV_exec_ldVxMem (x := x) rfl k, if_pos hk, address, same_memory, memRead_exec_ldMemVx hs stored hk]

end Sys2Proof.Machine
